-- ==== Sys2Proof/Word.lean ====
section
/-! DEFINITION. The two word types of the CORE (spec/00_scope.md R5, R14). -/

namespace Sys2Proof

/-- A memory cell, an opcode or a register-id operand: 8 bits, unsigned (R5, R14). -/
abbrev Byte := BitVec 8

/-- A register value, a literal or an address operand: 16 bits, unsigned (R5, R14). -/
abbrev Word := BitVec 16

end Sys2Proof
end

