-- ==== Sys2Proof/Syntax.lean ====
section
/-! DEFINITION. The instructions, the decoder's opcode tags, the access widths and the register names. -/

namespace Sys2Proof

/-- The eight registers by name (spec/10_state.md R18). Which id names which register is `REGMAP` (Config). -/
inductive Reg where
  | ip | acc | r1 | r2 | r3 | r4 | r5 | r6
  deriving DecidableEq, Repr

/-- A register id, always in 0 to 7 (R18). -/
abbrev RegId := Fin 8

/-- The two access widths, `n = 1` and `n = 2` (spec/00_scope.md R5). -/
inductive Width where
  | byte | word
  deriving DecidableEq, Repr

/-- One constructor for each row of spec/opcode_table.json. A register-id operand is the byte as fetched,
0 to 255 (spec/30_encoding.md R60); what it names is decided when the instruction executes (R61). -/
inductive Instr where
  /-- `ADD_REG_TO_REG` (spec/41_alu.md R84). -/
  | addRegToReg (reg1 reg2 : Byte)
  /-- `AND_REG_TO_REG` (R85). -/
  | andRegToReg (reg1 reg2 : Byte)
  /-- `OR_REG_TO_REG` (R86). -/
  | orRegToReg (reg1 reg2 : Byte)
  /-- `MOV_LITERAL_TO_REG` (spec/42_mov.md R89). -/
  | movLiteralToReg (literal : Word) (destReg : Byte)
  /-- `MOV_MEM_TO_REG` (R90). -/
  | movMemToReg (address : Word) (destReg : Byte)
  /-- `MOV_REG_TO_MEM` (R91). -/
  | movRegToMem (srcReg : Byte) (address : Word)
  /-- `MOV_REG_TO_REG` (R92). -/
  | movRegToReg (srcReg destReg : Byte)
  /-- `NO_OP` (spec/43_no_op.md R95). -/
  | noOp
  /-- The default arm: an opcode byte outside `OPC` other than the one written `NO_OP` (R96). -/
  | unknownOpcode (op : Byte)
  deriving DecidableEq, Repr

/-- The decoder's tag for an opcode byte, with an explicit default arm (spec/30_encoding.md R65). -/
inductive Opcode where
  | addRegToReg | andRegToReg | orRegToReg
  | movLiteralToReg | movMemToReg | movRegToMem | movRegToReg
  | noOp
  | unknown (op : Byte)
  deriving DecidableEq, Repr

/-- The tag of an instruction. -/
def Instr.opcode : Instr → Opcode
  | .addRegToReg _ _ => .addRegToReg
  | .andRegToReg _ _ => .andRegToReg
  | .orRegToReg _ _ => .orRegToReg
  | .movLiteralToReg _ _ => .movLiteralToReg
  | .movMemToReg _ _ => .movMemToReg
  | .movRegToMem _ _ => .movRegToMem
  | .movRegToReg _ _ => .movRegToReg
  | .noOp => .noOp
  | .unknownOpcode op => .unknown op

end Sys2Proof
end

