-- ==== Sys2Proof/Config.lean ====
section
/-! DEFINITION. The construction parameters the spec leaves to the implementation (spec/00_scope.md R6 to R12).
They are one plain record, fixed at construction and carried by State, so that a statement over every state holds
for every value of every parameter (DESIGN CHOICE, log entry 7; unsafe only for a statement about `State.reset`).
`Config.reference`, the values of `State.reset`, stands in Machine/Reference.lean. -/

namespace Sys2Proof

/-- The parameter `OPC`: the byte of each of the seven effect mnemonics (R7). `noOp` is the byte a listing writes
for `NO_OP` (spec/30_encoding.md R62); it only names one of the bytes outside the seven, and no effect depends on
it (DESIGN CHOICE, log entry 14, safe). -/
structure Opc where
  addRegToReg : Byte
  andRegToReg : Byte
  orRegToReg : Byte
  movLiteralToReg : Byte
  movMemToReg : Byte
  movRegToMem : Byte
  movRegToReg : Byte
  noOp : Byte
  deriving DecidableEq, Repr

/-- The image of `OPC`: the seven effect opcodes, in the order of the opcode table (R7). -/
def Opc.effectBytes (c : Opc) : List Byte :=
  [c.addRegToReg, c.andRegToReg, c.orRegToReg, c.movLiteralToReg, c.movMemToReg, c.movRegToMem, c.movRegToReg]

/-- The parameter `REG_ID_POLICY`: what a register-id operand of 8 or more does (R9). -/
inductive RegIdPolicy where
  /-- It raises `BadRegister`. -/
  | fault
  /-- It names the register of the id modulo 8. -/
  | mod8
  deriving DecidableEq, Repr

/-- The parameter `IP_DEST_POLICY`: what a destination register of IP does (R10). -/
inductive IpDestPolicy where
  /-- The value is written to IP. -/
  | write
  /-- It raises `BadRegister`. -/
  | fault
  deriving DecidableEq, Repr

/-- The construction parameters. -/
structure Config where
  /-- `MAX_OFFSET`, the highest valid address (R6). -/
  maxOffset : Nat
  /-- `OPC` (R7). -/
  opc : Opc
  /-- `REGMAP`: entry `i` is the register that id `i` names (R8). -/
  regMap : Vector Reg 8
  /-- `REG_ID_POLICY` (R9). -/
  regIdPolicy : RegIdPolicy
  /-- `IP_DEST_POLICY` (R10). -/
  ipDestPolicy : IpDestPolicy
  /-- `WB`, the bytes before IP that a snapshot returns (R12). -/
  windowBefore : Nat
  /-- `WA`, the bytes after IP that a snapshot returns (R12). -/
  windowAfter : Nat
  deriving DecidableEq, Repr

end Sys2Proof
end

