-- ==== Sys2Proof/Machine/Reference.lean ====
section
/-! DEFINITION. The parameter values that `State.reset` is constructed with, and that `decodeTableWord` decodes by. -/

namespace Sys2Proof

/-- The reference assignment of opcode bytes (spec/30_encoding.md R62, spec/92 D3): the spec's own choice for its
examples and its opcode table, not the hardware's. DESIGN CHOICE (log entry 1), unsafe for a statement about it. -/
def Opc.reference : Opc where
  addRegToReg := 0x10
  andRegToReg := 0x11
  orRegToReg := 0x12
  movLiteralToReg := 0x13
  movMemToReg := 0x14
  movRegToMem := 0x15
  movRegToReg := 0x16
  noOp := 0x00

/-- The listing order IP, ACC, R1 to R6 (spec/00_scope.md R8, spec/92 D4). DESIGN CHOICE (log entry 2), unsafe for
a statement about it. -/
def Config.listingOrder : Vector Reg 8 :=
  #v[.ip, .acc, .r1, .r2, .r3, .r4, .r5, .r6]

/-- The spec's defaults (R8, R9, R10), with `MAX_OFFSET = 0xFFFF` and a window of 8 bytes each side, which the spec
leaves open. DESIGN CHOICE (log entries 1 to 5 and 11), unsafe for a statement about it. -/
def Config.reference : Config where
  maxOffset := 0xFFFF
  opc := Opc.reference
  regMap := Config.listingOrder
  regIdPolicy := .fault
  ipDestPolicy := .write
  windowBefore := 8
  windowAfter := 8

end Sys2Proof
end

