-- ==== Sys2Proof/WellFormed.lean ====
section
/-! DEFINITION. What the spec requires of a parameter, and which instruction terms an encoding exists for. -/

namespace Sys2Proof

/-- `OPC` is injective (spec/00_scope.md R7), and the byte written `NO_OP` lies outside its image
(spec/43_no_op.md R95). -/
abbrev Opc.wf (c : Opc) : Prop :=
  c.effectBytes.Nodup ∧ c.noOp ∉ c.effectBytes

/-- `OPC` is well formed and `REGMAP` is a bijection: eight ids, eight different registers (R7, R8). -/
abbrev Config.wf (c : Config) : Prop :=
  c.opc.wf ∧ c.regMap.toList.Nodup

/-- The one check an instruction term needs: an `unknownOpcode` byte is outside `OPC` and is not the byte written
`NO_OP`. Every register-id byte and every 16-bit operand is encodable (spec/30_encoding.md R60). -/
def Instr.wf (c : Opc) : Instr → Bool
  | .unknownOpcode op => decide (op ∉ c.effectBytes ∧ op ≠ c.noOp)
  | .addRegToReg _ _ | .andRegToReg _ _ | .orRegToReg _ _ | .movLiteralToReg _ _ | .movMemToReg _ _
  | .movRegToMem _ _ | .movRegToReg _ _ | .noOp => true

end Sys2Proof
end

