-- ==== Sys2Proof/Decode.lean ====
section
/-! DEFINITION. The instruction_decoder block (spec/30_encoding.md): opcode byte to tag and schema, bytes to
instruction, and the encoder back. Total on every list of bytes: the one rejection is a list that ends too soon. -/

namespace Sys2Proof

/-- `hi ++ lo`, the word `hi * 0x100 + lo` (spec/00_scope.md R14). -/
def wordOfBytes (hi lo : Byte) : Word := BitVec.ofNat 16 (hi.toNat * 0x100 + lo.toNat)

/-- Bits 15 to 8 of a word. -/
def hiByte (w : Word) : Byte := w.extractLsb' 8 8

/-- Bits 7 to 0 of a word. -/
def loByte (w : Word) : Byte := w.extractLsb' 0 8

/-- The number of bytes of an access (R5). -/
def Width.bytes : Width → Nat
  | .byte => 1
  | .word => 2

/-- `decode(op)`, the tag of an opcode byte: the effect rows first, then the byte written `NO_OP`, then the default
arm (R63, R65 and the opcode table's note). -/
def decodeOpcode (c : Opc) (b : Byte) : Opcode :=
  if b = c.addRegToReg then .addRegToReg
  else if b = c.andRegToReg then .andRegToReg
  else if b = c.orRegToReg then .orRegToReg
  else if b = c.movLiteralToReg then .movLiteralToReg
  else if b = c.movMemToReg then .movMemToReg
  else if b = c.movRegToMem then .movRegToMem
  else if b = c.movRegToReg then .movRegToReg
  else if b = c.noOp then .noOp
  else .unknown b

/-- The schema: the operand widths in fetch order (R65). -/
def Opcode.schema : Opcode → List Width
  | .addRegToReg | .andRegToReg | .orRegToReg | .movRegToReg => [.byte, .byte]
  | .movLiteralToReg | .movMemToReg => [.word, .byte]
  | .movRegToMem => [.byte, .word]
  | .noOp | .unknown _ => []

/-- The instruction's length in bytes: the opcode byte and its operands (R58). -/
def Opcode.length (op : Opcode) : Nat := 1 + (op.schema.map Width.bytes).sum

/-- Why a list of bytes is no instruction. The hardware never meets either: its bytes come from memory. -/
inductive DecodeError where
  /-- There is no opcode byte. -/
  | noOpcode
  /-- The list ends before the last operand of this opcode. -/
  | truncated (op : Opcode)
  deriving DecidableEq, Repr

/-- Format RR: two register-id bytes (R59). -/
def decodeRR (op : Opcode) (mk : Byte → Byte → Instr) : List Byte → Except DecodeError (Instr × List Byte)
  | a :: b :: rest => .ok (mk a b, rest)
  | [_] | [] => .error (.truncated op)

/-- Format WR: a big-endian word, then a register-id byte (R59). -/
def decodeWR (op : Opcode) (mk : Word → Byte → Instr) : List Byte → Except DecodeError (Instr × List Byte)
  | hi :: lo :: d :: rest => .ok (mk (wordOfBytes hi lo) d, rest)
  | [_, _] | [_] | [] => .error (.truncated op)

/-- Format RW: a register-id byte, then a big-endian word (R59). -/
def decodeRW (op : Opcode) (mk : Byte → Word → Instr) : List Byte → Except DecodeError (Instr × List Byte)
  | r :: hi :: lo :: rest => .ok (mk r (wordOfBytes hi lo), rest)
  | [_, _] | [_] | [] => .error (.truncated op)

/-- The instruction at the head of a list of bytes, and the bytes after it (R58, R59, R63). -/
def decode (c : Opc) : List Byte → Except DecodeError (Instr × List Byte)
  | [] => .error .noOpcode
  | b :: rest =>
    match decodeOpcode c b with
    | .addRegToReg => decodeRR .addRegToReg .addRegToReg rest
    | .andRegToReg => decodeRR .andRegToReg .andRegToReg rest
    | .orRegToReg => decodeRR .orRegToReg .orRegToReg rest
    | .movLiteralToReg => decodeWR .movLiteralToReg .movLiteralToReg rest
    | .movMemToReg => decodeWR .movMemToReg .movMemToReg rest
    | .movRegToMem => decodeRW .movRegToMem .movRegToMem rest
    | .movRegToReg => decodeRR .movRegToReg .movRegToReg rest
    | .noOp => .ok (.noOp, rest)
    | .unknown op => .ok (.unknownOpcode op, rest)

/-- The bytes of an instruction in address order (R59). -/
def encode (c : Opc) : Instr → List Byte
  | .addRegToReg a b => [c.addRegToReg, a, b]
  | .andRegToReg a b => [c.andRegToReg, a, b]
  | .orRegToReg a b => [c.orRegToReg, a, b]
  | .movLiteralToReg w d => [c.movLiteralToReg, hiByte w, loByte w, d]
  | .movMemToReg w d => [c.movMemToReg, hiByte w, loByte w, d]
  | .movRegToMem r w => [c.movRegToMem, r, hiByte w, loByte w]
  | .movRegToReg a b => [c.movRegToReg, a, b]
  | .noOp => [c.noOp]
  | .unknownOpcode op => [op]

/-- The `n` low bytes of `w`, most significant first. -/
def bytesBE : Nat → Nat → List Byte
  | 0, _ => []
  | n + 1, w => BitVec.ofNat 8 (w / 256 ^ n) :: bytesBE n w

/-- The bytes of an opcode-table word in address order. The table numbers the first byte of the instruction as the
most significant of the row's string (R59 and the table's notes), so `w` is read most significant byte first; any
operand byte the row does not give is zero. DEDUCED (log entry 15), safe. -/
def tableBytes (nbits w : Nat) : List Byte :=
  bytesBE ((nbits + 7) / 8) w ++ List.replicate 4 0

/-- The instruction that an opcode-table word stands for, under the reference assignment the table uses. -/
def decodeTableWord (nbits w : Nat) : Option Instr :=
  match decode Opc.reference (tableBytes nbits w) with
  | .ok (i, _) => some i
  | .error _ => none

end Sys2Proof
end

