-- ==== Sys2Proof/Machine/State.lean ====
section
/-! DEFINITION. The state of the CORE (spec/10_state.md R17), its faults, and the machine right after reset. -/

namespace Sys2Proof.Machine

/-- The eight named 16-bit slots (R18). -/
structure RegFile where
  ip : Word
  acc : Word
  r1 : Word
  r2 : Word
  r3 : Word
  r4 : Word
  r5 : Word
  r6 : Word
  deriving DecidableEq, Repr

/-- The memory array `M` (R31) as the cells that differ from what an unlisted address reads as
(`Memory.unlisted`), addresses strictly rising (`Memory.wf`, Machine/Ops.lean). -/
abbrev Memory := List Host.Cell

/-- The whole state (R17): the register file, the memory array and the loader write cursor. `config` is the model's
own field, the construction parameters, which nothing changes (log entry 7). -/
structure State where
  /-- `x[0..7]`, by name. -/
  regs : RegFile
  /-- `M[0..MAX_OFFSET]`. -/
  mem : Memory
  /-- `C`, the loader write cursor, an unbounded natural (R32). -/
  cursor : Nat
  /-- The construction parameters. -/
  config : Config
  deriving DecidableEq, Repr

/-- The phase of a step that a fault arose in (spec/00_scope.md R16). -/
inductive Phase where
  | opcodeFetch | operandFetch | dataLoad | dataStore | execute
  deriving DecidableEq, Repr

/-- The two fault kinds (spec/60_exceptions.md R98). -/
inductive FaultKind where
  | outOfBounds | badRegister
  deriving DecidableEq, Repr

/-- The result `Fault(kind, addr, width, phase)` of a step (R16). `after` is the state the CORE is left in, from
which it would accept a further STEP (spec/40_fetch_and_step.md R82); a run ends at the fault (log entry 10). -/
inductive Fault where
  /-- `OutOfBounds` (R99): raised by an opcode fetch, an operand fetch, the load of `MOV_MEM_TO_REG` or the store of
  `MOV_REG_TO_MEM` whose bytes are not all within `0..MAX_OFFSET`. The hardware's own fault; the payload beside the
  kind is the spec's choice (log entry 9). Safe. -/
  | outOfBounds (addr : Nat) (width : Width) (phase : Phase) (after : State)
  /-- `BadRegister` (R100): raised by the execute check of every instruction with a register-id operand, under
  `REG_ID_POLICY = Fault` or `IP_DEST_POLICY = Fault`. Its width is 1 and its phase `Execute`. The spec's decision
  for what the hardware leaves open (log entries 3 and 4). Safe. -/
  | badRegister (addr : Nat) (after : State)
  deriving DecidableEq, Repr

/-- Why a step has no meaning. Every instruction has one, so no step of this model is refused. -/
inductive Refusal where
  /-- An instruction that has no meaning yet; raised by an arm of `exec` alone, and no arm is left that raises it.
  Safe. -/
  | notModelled (mnemonic : String)
  deriving DecidableEq, Repr

/-- Reset is construction (spec/70_reset_and_hazards.md R113): every register 0, the cursor 0, and a memory whose
contents `MEM0` are an argument (spec/00_scope.md R11). -/
def State.construct (config : Config) (mem0 : Memory) : State where
  regs := { ip := 0, acc := 0, r1 := 0, r2 := 0, r3 := 0, r4 := 0, r5 := 0, r6 := 0 }
  mem := mem0
  cursor := 0
  config := config

/-- The machine right after reset with the reference parameters and nothing listed in memory. DESIGN CHOICE (log
entries 1 to 6), unsafe: the spec leaves the parameters and `MEM0` open. -/
def State.reset : State := State.construct Config.reference []

end Sys2Proof.Machine
end

