-- ==== Sys2Proof/Machine/Ops.lean ====
section
/-! DEFINITION. The named operations over memory and registers: the register_file, the bounds_check_logic and the
load_store_unit (spec/10_state.md, spec/20_memory.md), and the one operation that raises each fault. -/

namespace Sys2Proof.Machine

/-! The memory array. -/

/-- What a cell that nothing has written reads as. The spec leaves `MEM0` open (spec/00_scope.md R11): DESIGN CHOICE
(log entry 6), unsafe for a statement about `State.reset`'s memory; every `MEM0` is the memory of some state. -/
def Memory.unlisted : Byte := 0x00

/-- `M[a]` (R15). -/
def Memory.read : Memory → Nat → Byte
  | [], _ => Memory.unlisted
  | (b, v) :: m, a => if a = b then v else Memory.read m a

/-- `M[a] <- v` (R15), keeping addresses strictly rising and listing no cell that reads as an unlisted one. -/
def Memory.write : Memory → Nat → Byte → Memory
  | [], a, v => if v = Memory.unlisted then [] else [(a, v)]
  | (b, w) :: m, a, v =>
    if a < b then (if v = Memory.unlisted then (b, w) :: m else (a, v) :: (b, w) :: m)
    else if a = b then (if v = Memory.unlisted then m else (a, v) :: m)
    else (b, w) :: Memory.write m a v

/-- The one canonical form: addresses strictly rising, and no listed cell equal to what an unlisted one reads as. -/
abbrev Memory.wf (m : Memory) : Prop :=
  m.Pairwise (fun x y => x.1 < y.1) ∧ ∀ c ∈ m, c.2 ≠ Memory.unlisted

/-- Every listed cell is one of the cells `0..maxOffset` that exist (spec/10_state.md R31). -/
abbrev Memory.within (maxOffset : Nat) (m : Memory) : Prop :=
  ∀ c ∈ m, c.1 ≤ maxOffset

/-! The register file (R18, R19, R22). -/

/-- A register by name. -/
def RegFile.read (f : RegFile) : Reg → Word
  | .ip => f.ip
  | .acc => f.acc
  | .r1 => f.r1
  | .r2 => f.r2
  | .r3 => f.r3
  | .r4 => f.r4
  | .r5 => f.r5
  | .r6 => f.r6

/-- The register file with one register replaced. -/
def RegFile.write (f : RegFile) (r : Reg) (v : Word) : RegFile :=
  match r with
  | .ip => { f with ip := v }
  | .acc => { f with acc := v }
  | .r1 => { f with r1 := v }
  | .r2 => { f with r2 := v }
  | .r3 => { f with r3 := v }
  | .r4 => { f with r4 := v }
  | .r5 => { f with r5 := v }
  | .r6 => { f with r6 := v }

/-- A register of the state by name. -/
def State.reg (s : State) (r : Reg) : Word := s.regs.read r

/-- The state with one register replaced. -/
def State.setReg (s : State) (r : Reg) (v : Word) : State := { s with regs := s.regs.write r v }

/-- IP, the program_counter (R24). -/
def State.ip (s : State) : Word := s.regs.ip

/-- The state with IP replaced. -/
def State.withIp (s : State) (v : Word) : State := { s with regs := { s.regs with ip := v } }

/-- The state with memory replaced. -/
def State.withMem (s : State) (m : Memory) : State := { s with mem := m }

/-- The state with the loader write cursor replaced. -/
def State.withCursor (s : State) (c : Nat) : State := { s with cursor := c }

/-- The register that a register id names, `REGMAP` (spec/00_scope.md R8). -/
def regOf (c : Config) (id : RegId) : Reg := c.regMap[id]

/-- `rf_read(i)` (R22): the value of `x[i]`. -/
def State.rfRead (s : State) (id : RegId) : Word := s.reg (regOf s.config id)

/-- `rf_write(i, v)` (R22): `x[i] <- v mod 2^16`, for a value of any size (R19). -/
def State.rfWrite (s : State) (id : RegId) (v : Nat) : State :=
  s.setReg (regOf s.config id) (BitVec.ofNat 16 v)

/-- `rf_snapshot()` (R22): `x[0..7]`. -/
def State.rfSnapshot (s : State) : Vector Word 8 := s.config.regMap.map s.reg

/-! The bounds check (R34) and the four accesses (R37 to R40). -/

/-- `in_range(a, n)`: `a + n - 1 <= MAX_OFFSET`, on unwrapped naturals (R34, R35). -/
def inRange (maxOffset a : Nat) (w : Width) : Bool := decide (a + w.bytes - 1 ≤ maxOffset)

/-- The answer `OutOfBounds(addr, width)` of a failed access (R57); the phase is the caller's to add (R41). -/
structure AccessFault where
  addr : Nat
  width : Width
  deriving DecidableEq, Repr

/-- `loadByte(a)` (R37). -/
def State.loadByte (s : State) (a : Nat) : Except AccessFault Byte :=
  if inRange s.config.maxOffset a .byte then .ok (s.mem.read a) else .error ⟨a, .byte⟩

/-- `load16(a)` (R38): big-endian, `M[a]` the high byte. -/
def State.load16 (s : State) (a : Nat) : Except AccessFault Word :=
  if inRange s.config.maxOffset a .word then .ok (wordOfBytes (s.mem.read a) (s.mem.read (a + 1)))
  else .error ⟨a, .word⟩

/-- `storeByte(a, b)` (R39). -/
def State.storeByte (s : State) (a : Nat) (b : Byte) : Except AccessFault State :=
  if inRange s.config.maxOffset a .byte then .ok (s.withMem (s.mem.write a b)) else .error ⟨a, .byte⟩

/-- `store16(a, w)` (R40): the check comes before either write. -/
def State.store16 (s : State) (a : Nat) (w : Word) : Except AccessFault State :=
  if inRange s.config.maxOffset a .word then
    .ok (s.withMem ((s.mem.write a (hiByte w)).write (a + 1) (loByte w)))
  else .error ⟨a, .word⟩

/-- `pushByte(b)` (R55): store at the cursor and advance it by 1; a failing push changes nothing. -/
def State.pushByte (s : State) (b : Byte) : Except AccessFault State :=
  match s.storeByte s.cursor b with
  | .ok t => .ok (t.withCursor (s.cursor + 1))
  | .error f => .error f

/-- `push16(w)` (R56): store at the cursor and advance it by 2; a failing push changes nothing. -/
def State.push16 (s : State) (w : Word) : Except AccessFault State :=
  match s.store16 s.cursor w with
  | .ok t => .ok (t.withCursor (s.cursor + 2))
  | .error f => .error f

/-! Raising a fault. There is no trap entry and no return from one (spec/60_exceptions.md R104, R105): no state is
saved, no mode changes and no handler exists, so the fault is the whole answer of the step, with the state it leaves. -/

/-- What a meaning answers. -/
abbrev Result := Host.Outcome State Fault Refusal

/-- The fault of a failed access in a phase of a step, leaving `s` (R99, R104). -/
def raiseOutOfBounds (f : AccessFault) (phase : Phase) (s : State) : Fault :=
  .outOfBounds f.addr f.width phase s

/-- The fault of a failed register-id check, leaving `s` (R100). -/
def raiseBadRegister (addr : Nat) (s : State) : Fault := .badRegister addr s

/-- `kind` (R16, R98). -/
def Fault.kind : Fault → FaultKind
  | .outOfBounds _ _ _ _ => .outOfBounds
  | .badRegister _ _ => .badRegister

/-- The numeric code of a kind (R98); the spec's own choice (log entry 9). -/
def FaultKind.code : FaultKind → Nat
  | .outOfBounds => 1
  | .badRegister => 2

/-- `addr` (R99, R100). -/
def Fault.addr : Fault → Nat
  | .outOfBounds a _ _ _ => a
  | .badRegister a _ => a

/-- `width` (R99, R100). -/
def Fault.width : Fault → Width
  | .outOfBounds _ w _ _ => w
  | .badRegister _ _ => .byte

/-- `phase` (R99, R100). -/
def Fault.phase : Fault → Phase
  | .outOfBounds _ _ p _ => p
  | .badRegister _ _ => .execute

/-- The state the CORE is left in (spec/40_fetch_and_step.md R70, R71, R73). -/
def Fault.after : Fault → State
  | .outOfBounds _ _ _ s => s
  | .badRegister _ s => s

end Sys2Proof.Machine
end

