-- ==== Sys2Proof/Machine/Flags.lean ====
section
/-! DEFINITION. The results of the three arithmetic and bitwise operations. The CORE has no flags: no carry, zero,
sign or overflow indication exists (spec/10_state.md R28), so the result is all there is. -/

namespace Sys2Proof.Machine

/-- The exact unsigned sum modulo 2^16, its carry discarded (spec/41_alu.md R84, R87). -/
def addResult (a b : Word) : Word := BitVec.ofNat 16 (a.toNat + b.toNat)

/-- Bitwise AND on 16 bits (R85). -/
def andResult (a b : Word) : Word := a &&& b

/-- Bitwise OR on 16 bits (R86). -/
def orResult (a b : Word) : Word := a ||| b

end Sys2Proof.Machine
end

