-- ==== Sys2Proof/Machine/Operands.lean ====
section
/-! DEFINITION. The operand forms of the execute phase (spec/40_fetch_and_step.md R73): the check of a register-id
operand as a source and as a destination, and the two data accesses. -/

namespace Sys2Proof.Machine

/-- The register id of an operand byte (spec/30_encoding.md R61): itself when at most 7; else none under
`REG_ID_POLICY = Fault`, and the byte modulo 8 under `Mod8`. -/
def operandId (c : Config) (r : Byte) : Option RegId :=
  if h : r.toNat < 8 then some ⟨r.toNat, h⟩
  else
    match c.regIdPolicy with
    | .fault => none
    | .mod8 => some ⟨r.toNat % 8, Nat.mod_lt _ (by decide)⟩

/-- The check of a source operand (R73 step 1): the register it names, or the `addr` that `BadRegister` records. -/
def checkSource (c : Config) (r : Byte) : Except Nat Reg :=
  match operandId c r with
  | some id => .ok (regOf c id)
  | none => .error r.toNat

/-- The check of a destination operand (R73 step 1, spec/10_state.md R26): as a source, and under
`IP_DEST_POLICY = Fault` an id that names IP fails too, recording that id (0 in the listing order; DEDUCED, log
entry 19, for another `REGMAP`). -/
def checkDest (c : Config) (r : Byte) : Except Nat Reg :=
  match operandId c r with
  | none => .error r.toNat
  | some id =>
    if regOf c id = .ip ∧ c.ipDestPolicy = .fault then .error id.val else .ok (regOf c id)

/-- Go on with the register a source operand names, or raise `BadRegister` (R100). -/
def withSource (s : State) (r : Byte) (k : Reg → Result) : Result :=
  match checkSource s.config r with
  | .ok reg => k reg
  | .error a => .fault (raiseBadRegister a s)

/-- Go on with the register a destination operand names, or raise `BadRegister` (R100). -/
def withDest (s : State) (r : Byte) (k : Reg → Result) : Result :=
  match checkDest s.config r with
  | .ok reg => k reg
  | .error a => .fault (raiseBadRegister a s)

/-- The data address of an address operand: absolute, zero-extended (spec/42_mov.md R93). -/
def dataAddress (address : Word) : Nat := address.toNat

/-- Go on with `load16(address)`, or raise `OutOfBounds` in the phase `DataLoad` (R73 step 3). -/
def withLoad16 (s : State) (address : Word) (k : Word → Result) : Result :=
  match s.load16 (dataAddress address) with
  | .ok v => k v
  | .error f => .fault (raiseOutOfBounds f .dataLoad s)

/-- End with `store16(address, v)`, or raise `OutOfBounds` in the phase `DataStore` (R73 step 3). -/
def finishStore16 (s : State) (address : Word) (v : Word) : Result :=
  match s.store16 (dataAddress address) v with
  | .ok t => .next t
  | .error f => .fault (raiseOutOfBounds f .dataStore s)

end Sys2Proof.Machine
end

