-- ==== Sys2Proof/Machine/Alu.lean ====
section
/-! DEFINITION. ADD_REG_TO_REG, AND_REG_TO_REG, OR_REG_TO_REG (spec/41_alu.md). -/

namespace Sys2Proof.Machine

/-- The shape the three share (R83): check both ids, read both registers, write ACC. -/
def aluToAcc (f : Word → Word → Word) (reg1 reg2 : Byte) (s : State) : Result :=
  withSource s reg1 fun a => withSource s reg2 fun b => .next (s.setReg .acc (f (s.reg a) (s.reg b)))

/-- `ADD_REG_TO_REG` (R84). -/
def execAddRegToReg (reg1 reg2 : Byte) (s : State) : Result := aluToAcc addResult reg1 reg2 s

/-- `AND_REG_TO_REG` (R85). -/
def execAndRegToReg (reg1 reg2 : Byte) (s : State) : Result := aluToAcc andResult reg1 reg2 s

/-- `OR_REG_TO_REG` (R86). -/
def execOrRegToReg (reg1 reg2 : Byte) (s : State) : Result := aluToAcc orResult reg1 reg2 s

end Sys2Proof.Machine
end

