-- ==== Sys2Proof/Machine/Mov.lean ====
section
/-! DEFINITION. The four moves (spec/42_mov.md): check the ids in operand order, read, access, write (R88). -/

namespace Sys2Proof.Machine

/-- `MOV_LITERAL_TO_REG` (R89). -/
def execMovLiteralToReg (literal : Word) (destReg : Byte) (s : State) : Result :=
  withDest s destReg fun d => .next (s.setReg d literal)

/-- `MOV_MEM_TO_REG` (R90): the check comes before the load. -/
def execMovMemToReg (address : Word) (destReg : Byte) (s : State) : Result :=
  withDest s destReg fun d => withLoad16 s address fun v => .next (s.setReg d v)

/-- `MOV_REG_TO_MEM` (R91). -/
def execMovRegToMem (srcReg : Byte) (address : Word) (s : State) : Result :=
  withSource s srcReg fun r => finishStore16 s address (s.reg r)

/-- `MOV_REG_TO_REG` (R92). -/
def execMovRegToReg (srcReg destReg : Byte) (s : State) : Result :=
  withSource s srcReg fun r => withDest s destReg fun d => .next (s.setReg d (s.reg r))

end Sys2Proof.Machine
end

