-- ==== Sys2Proof/Machine/NoOp.lean ====
section
/-! DEFINITION. NO_OP and the default arm (spec/43_no_op.md): IP has moved past the opcode byte in the fetch. -/

namespace Sys2Proof.Machine

/-- `NO_OP` (R95): no effect. -/
def execNoOp (s : State) : Result := .next s

/-- An unknown opcode byte executes exactly as `NO_OP` (R96), whatever the byte. -/
def execUnknownOpcode (_op : Byte) (s : State) : Result := .next s

end Sys2Proof.Machine
end

