-- ==== Sys2Proof/Machine/Dispatch.lean ====
section
/-! DEFINITION. The execute phase of a step: one arm per constructor (spec/40_fetch_and_step.md R69, `execute`).
The state it takes is the one after all of the step's fetches (R74). -/

namespace Sys2Proof.Machine

def exec (i : Instr) (s : State) : Host.Outcome State Fault Refusal :=
  match i with
  | .addRegToReg reg1 reg2 => Sys2Proof.Machine.execAddRegToReg reg1 reg2 s
  | .andRegToReg reg1 reg2 => Sys2Proof.Machine.execAndRegToReg reg1 reg2 s
  | .orRegToReg reg1 reg2 => Sys2Proof.Machine.execOrRegToReg reg1 reg2 s
  | .movLiteralToReg literal destReg => Sys2Proof.Machine.execMovLiteralToReg literal destReg s
  | .movMemToReg address destReg => Sys2Proof.Machine.execMovMemToReg address destReg s
  | .movRegToMem srcReg address => Sys2Proof.Machine.execMovRegToMem srcReg address s
  | .movRegToReg srcReg destReg => Sys2Proof.Machine.execMovRegToReg srcReg destReg s
  | .noOp => Sys2Proof.Machine.execNoOp s
  | .unknownOpcode op => Sys2Proof.Machine.execUnknownOpcode op s

end Sys2Proof.Machine
end

