-- ==== Sys2Proof/Machine/Fetch.lean ====
section
/-! DEFINITION. The fetch_unit and the program_counter's advance (spec/40_fetch_and_step.md R67, R68, R76), and where
an instruction's bytes are fetched from. -/

namespace Sys2Proof.Machine

/-- The end of a fetch: a value and the state after it, or a fault. -/
inductive Fetched (α : Type) where
  | done (value : α) (after : State)
  | stop (fault : Fault)

/-- One fetch after another (R68). -/
def Fetched.andThen {α β : Type} (x : Fetched α) (k : α → State → Fetched β) : Fetched β :=
  match x with
  | .done a s => k a s
  | .stop f => .stop f

/-- `IP <- (IP + n) mod 2^16` (spec/10_state.md R25). -/
def State.advanceIp (s : State) (w : Width) : State := s.withIp (s.ip + BitVec.ofNat 16 w.bytes)

/-- `fetch(1)` (R67): only a read that succeeds advances IP. -/
def fetchByte (phase : Phase) (s : State) : Fetched Byte :=
  match s.loadByte s.ip.toNat with
  | .ok v => .done v (s.advanceIp .byte)
  | .error f => .stop (raiseOutOfBounds f phase s)

/-- `fetch(2)` (R67): a big-endian word; only a read that succeeds advances IP. -/
def fetchWord (phase : Phase) (s : State) : Fetched Word :=
  match s.load16 s.ip.toNat with
  | .ok v => .done v (s.advanceIp .word)
  | .error f => .stop (raiseOutOfBounds f phase s)

/-- The operands of format RR, in fetch order (R65, R68). -/
def fetchRR (mk : Byte → Byte → Instr) (s : State) : Fetched Instr :=
  (fetchByte .operandFetch s).andThen fun a s1 =>
    (fetchByte .operandFetch s1).andThen fun b s2 => .done (mk a b) s2

/-- The operands of format WR, in fetch order. -/
def fetchWR (mk : Word → Byte → Instr) (s : State) : Fetched Instr :=
  (fetchWord .operandFetch s).andThen fun w s1 =>
    (fetchByte .operandFetch s1).andThen fun d s2 => .done (mk w d) s2

/-- The operands of format RW, in fetch order. -/
def fetchRW (mk : Byte → Word → Instr) (s : State) : Fetched Instr :=
  (fetchByte .operandFetch s).andThen fun r s1 =>
    (fetchWord .operandFetch s1).andThen fun w s2 => .done (mk r w) s2

/-- The operands of an opcode, in the order of its schema (R65, R69). -/
def fetchOperands (op : Opcode) (s : State) : Fetched Instr :=
  match op with
  | .addRegToReg => fetchRR .addRegToReg s
  | .andRegToReg => fetchRR .andRegToReg s
  | .orRegToReg => fetchRR .orRegToReg s
  | .movLiteralToReg => fetchWR .movLiteralToReg s
  | .movMemToReg => fetchWR .movMemToReg s
  | .movRegToMem => fetchRW .movRegToMem s
  | .movRegToReg => fetchRR .movRegToReg s
  | .noOp => .done .noOp s
  | .unknown b => .done (.unknownOpcode b) s

/-- The opcode byte, its decoding, then its operands (R69). -/
def fetchInstr (s : State) : Fetched Instr :=
  (fetchByte .opcodeFetch s).andThen fun b s1 => fetchOperands (decodeOpcode s.config.opc b) s1

/-- The addresses that operands of these widths are fetched from, the first at `ip`. IP wraps between operands
(R25); the second byte of a word does not (spec/20_memory.md R35; log entry 16). -/
def operandAddresses : List Width → Word → List Nat
  | [], _ => []
  | .byte :: ws, ip => ip.toNat :: operandAddresses ws (ip + 1)
  | .word :: ws, ip => ip.toNat :: (ip.toNat + 1) :: operandAddresses ws (ip + 2)

/-- The addresses an instruction with this opcode at `ip` is fetched from (spec/30_encoding.md R59). -/
def instrAddresses (op : Opcode) (ip : Word) : List Nat :=
  ip.toNat :: operandAddresses op.schema (ip + 1)

/-- The bytes at a list of addresses. -/
def State.bytesAt (s : State) (as : List Nat) : List Byte := as.map s.mem.read

/-- The opcode of the instruction at IP. -/
def State.opcodeAtIp (s : State) : Opcode := decodeOpcode s.config.opc (s.mem.read s.ip.toNat)

/-- The bytes that a step at `s` consumes, in fetch order. -/
def State.instrBytes (s : State) : List Byte := s.bytesAt (instrAddresses s.opcodeAtIp s.ip)

/-- A loader `storeByte` for each address and byte; one that is out of range stores nothing (R78). -/
def State.placeBytes (s : State) : List Nat → List Byte → State
  | a :: as, b :: bs =>
    match s.storeByte a b with
    | .ok t => t.placeBytes as bs
    | .error _ => s.placeBytes as bs
  | _, _ => s

/-- The instruction whose bytes head the list, stored where the next step fetches it. -/
def State.placeInstr (s : State) (bs : List Byte) : State :=
  s.placeBytes (instrAddresses (decodeOpcode s.config.opc (bs.headD 0)) s.ip) bs

end Sys2Proof.Machine
end

