-- ==== Sys2Proof/Machine/Step.lean ====
section
/-! DEFINITION. One step (spec/40_fetch_and_step.md R69), and where the host puts an instruction for the next step. -/

namespace Sys2Proof.Machine

/-- `step()` (R69): fetch the opcode and the operands, then execute on the state after the fetches. -/
def step (s : State) : Host.Outcome State Fault Refusal :=
  match fetchInstr s with
  | .done i t => exec i t
  | .stop f => .fault f

/-- `s` with the opcode-table word `w` loaded where `step` fetches next: its bytes stored at the addresses the fetch
reads, from IP on, as the loader port stores them (R78; log entry 17). -/
def State.withFetchWord (s : State) (nbits w : Nat) : State := s.placeInstr (tableBytes nbits w)

end Sys2Proof.Machine
end

