-- ==== Sys2Proof/Machine/Listing.lean ====
section
/-! DEFINITION. The assembler's listing form (spec/30_encoding.md R66, spec/92 D14): a mnemonic, then the operands in
fetch order, registers by name, a 16-bit operand as two bytes high-first or as one value. -/

namespace Sys2Proof.Machine

/-- One item of a listing line; `Token.text` is how it is written. -/
inductive Token where
  | mnemonic (op : Opcode)
  | byte (b : Byte)
  | word (w : Word)
  | reg (r : Reg)
  deriving DecidableEq, Repr

/-- The mnemonic of an opcode (R62); an unknown opcode byte has none of its own. -/
def opcodeText : Opcode → String
  | .addRegToReg => "ADD_REG_TO_REG"
  | .andRegToReg => "AND_REG_TO_REG"
  | .orRegToReg => "OR_REG_TO_REG"
  | .movLiteralToReg => "MOV_LITERAL_TO_REG"
  | .movMemToReg => "MOV_MEM_TO_REG"
  | .movRegToMem => "MOV_REG_TO_MEM"
  | .movRegToReg => "MOV_REG_TO_REG"
  | .noOp => "NO_OP"
  | .unknown _ => "NO_OP"

/-- A register's name (R66). -/
def regText : Reg → String
  | .ip => "IP"
  | .acc => "ACC"
  | .r1 => "R1"
  | .r2 => "R2"
  | .r3 => "R3"
  | .r4 => "R4"
  | .r5 => "R5"
  | .r6 => "R6"

/-- One hexadecimal digit, in capitals as the listings have them. -/
def hexDigit (n : Nat) : Char :=
  if n < 10 then Char.ofNat (48 + n) else Char.ofNat (55 + n)

/-- The last `digits` hexadecimal digits of a number. -/
def hexDigits : Nat → Nat → List Char
  | 0, _ => []
  | d + 1, n => hexDigit (n / 16 ^ d % 16) :: hexDigits d n

/-- How a token is written. -/
def Token.text : Token → String
  | .mnemonic op => opcodeText op
  | .byte b => "0x" ++ String.ofList (hexDigits 2 b.toNat)
  | .word w => "0x" ++ String.ofList (hexDigits 4 w.toNat)
  | .reg r => regText r

/-- The register a register-id byte of at most 7 names; a listing has no name for any other byte. -/
def listedReg (c : Config) (r : Byte) : Option Reg :=
  if h : r.toNat < 8 then some (regOf c ⟨r.toNat, h⟩) else none

/-- The first id of a `REGMAP` that names a register; a bijection has exactly one. -/
def idOf (c : Config) (r : Reg) : Byte := BitVec.ofNat 8 (c.regMap.toList.idxOf r)

/-- The listing line of an instruction, its 16-bit operand as two bytes; none for an instruction the form cannot
write (a register-id byte of 8 or more, an unknown opcode byte). -/
def listing (c : Config) : Instr → Option (List Token)
  | .addRegToReg a b => do return [.mnemonic .addRegToReg, .reg (← listedReg c a), .reg (← listedReg c b)]
  | .andRegToReg a b => do return [.mnemonic .andRegToReg, .reg (← listedReg c a), .reg (← listedReg c b)]
  | .orRegToReg a b => do return [.mnemonic .orRegToReg, .reg (← listedReg c a), .reg (← listedReg c b)]
  | .movLiteralToReg w d => do
    return [.mnemonic .movLiteralToReg, .byte (hiByte w), .byte (loByte w), .reg (← listedReg c d)]
  | .movMemToReg w d => do
    return [.mnemonic .movMemToReg, .byte (hiByte w), .byte (loByte w), .reg (← listedReg c d)]
  | .movRegToMem r w => do
    return [.mnemonic .movRegToMem, .reg (← listedReg c r), .byte (hiByte w), .byte (loByte w)]
  | .movRegToReg a b => do return [.mnemonic .movRegToReg, .reg (← listedReg c a), .reg (← listedReg c b)]
  | .noOp => some [.mnemonic .noOp]
  | .unknownOpcode _ => none

/-- The instruction of a listing line, in either form of a 16-bit operand. -/
def parseListing (c : Config) : List Token → Option Instr
  | [.mnemonic .addRegToReg, .reg a, .reg b] => some (.addRegToReg (idOf c a) (idOf c b))
  | [.mnemonic .andRegToReg, .reg a, .reg b] => some (.andRegToReg (idOf c a) (idOf c b))
  | [.mnemonic .orRegToReg, .reg a, .reg b] => some (.orRegToReg (idOf c a) (idOf c b))
  | [.mnemonic .movLiteralToReg, .byte hi, .byte lo, .reg d] =>
    some (.movLiteralToReg (wordOfBytes hi lo) (idOf c d))
  | [.mnemonic .movLiteralToReg, .word w, .reg d] => some (.movLiteralToReg w (idOf c d))
  | [.mnemonic .movMemToReg, .byte hi, .byte lo, .reg d] => some (.movMemToReg (wordOfBytes hi lo) (idOf c d))
  | [.mnemonic .movMemToReg, .word w, .reg d] => some (.movMemToReg w (idOf c d))
  | [.mnemonic .movRegToMem, .reg r, .byte hi, .byte lo] => some (.movRegToMem (idOf c r) (wordOfBytes hi lo))
  | [.mnemonic .movRegToMem, .reg r, .word w] => some (.movRegToMem (idOf c r) w)
  | [.mnemonic .movRegToReg, .reg a, .reg b] => some (.movRegToReg (idOf c a) (idOf c b))
  | [.mnemonic .noOp] => some .noOp
  | _ => none

end Sys2Proof.Machine
end

