-- ==== Sys2Proof/Machine/Ports.lean ====
section
/-! DEFINITION. The three host-facing ports (spec/40_fetch_and_step.md R77 to R81): the step port, the loader port and
the snapshot port. A request is served between steps, never during one (R80; log entry 13). -/

namespace Sys2Proof.Machine

/-- What the host may ask of the CORE. -/
inductive Request where
  /-- `STEP` (R77). -/
  | step
  /-- The six loader requests (R78). -/
  | loadByte (a : Nat)
  | load16 (a : Nat)
  | storeByte (a : Nat) (b : Byte)
  | store16 (a : Nat) (w : Word)
  | pushByte (b : Byte)
  | push16 (w : Word)
  /-- `SNAPSHOT` (R79). -/
  | snapshot
  deriving DecidableEq, Repr

/-- What a snapshot shows (R79): `x[0..7]`, and each address of the window with its byte, or none where the address
is outside `0..MAX_OFFSET`. -/
structure Snapshot where
  regs : Vector Word 8
  window : List (Int × Option Byte)
  deriving DecidableEq, Repr

/-- What the CORE answers. -/
inductive Response where
  /-- `Ok`. -/
  | ok
  /-- The value of a loader `loadByte`. -/
  | byte (v : Byte)
  /-- The value of a loader `load16`. -/
  | word (v : Word)
  /-- The answer of `SNAPSHOT`. -/
  | snapshot (view : Snapshot)
  /-- `OutOfBounds(addr, width)` of a loader request (R78). -/
  | outOfBounds (addr : Nat) (width : Width)
  /-- `Fault(kind, addr, width, phase)` of a step (R77). -/
  | fault (kind : FaultKind) (addr : Nat) (width : Width) (phase : Phase)
  /-- A refused step; no step of this model is refused (R75). -/
  | refused (r : Refusal)
  deriving DecidableEq, Repr

/-- The byte a snapshot shows for an address of its window (R79). -/
def State.windowByte (s : State) (b : Int) : Option Byte :=
  if 0 ≤ b ∧ b ≤ (s.config.maxOffset : Int) then some (s.mem.read b.toNat) else none

/-- The addresses `IP - WB` to `IP + WA` (R79). -/
def State.windowAddresses (s : State) : List Int :=
  (List.range (s.config.windowBefore + s.config.windowAfter + 1)).map fun k : Nat =>
    (s.ip.toNat : Int) - (s.config.windowBefore : Int) + (k : Int)

/-- The answer of `SNAPSHOT` (R79). -/
def State.snapshot (s : State) : Snapshot where
  regs := s.rfSnapshot
  window := s.windowAddresses.map fun b => (b, s.windowByte b)

/-- The answer and the state after a loader store: an `OutOfBounds` leaves the state as it was (R57). -/
def answerStore (s : State) (r : Except AccessFault State) : Response × State :=
  match r with
  | .ok t => (.ok, t)
  | .error f => (.outOfBounds f.addr f.width, s)

/-- The step port (R77): after a fault the CORE stays in the state the fault leaves, and accepts the next request
(R75, R82). -/
def stepPort (s : State) : Response × State :=
  match step s with
  | .next t => (.ok, t)
  | .fault f => (.fault f.kind f.addr f.width f.phase, f.after)
  | .refused r => (.refused r, s)

/-- One request, served in full. -/
def serve (req : Request) (s : State) : Response × State :=
  match req with
  | .step => stepPort s
  | .loadByte a =>
    match s.loadByte a with
    | .ok v => (.byte v, s)
    | .error f => (.outOfBounds f.addr f.width, s)
  | .load16 a =>
    match s.load16 a with
    | .ok v => (.word v, s)
    | .error f => (.outOfBounds f.addr f.width, s)
  | .storeByte a b => answerStore s (s.storeByte a b)
  | .store16 a w => answerStore s (s.store16 a w)
  | .pushByte b => answerStore s (s.pushByte b)
  | .push16 w => answerStore s (s.push16 w)
  | .snapshot => (.snapshot s.snapshot, s)

/-- The state after a list of requests, in the order the host issues them (spec/20_memory.md R50). -/
def serveAll : List Request → State → State
  | [], s => s
  | r :: rs, s => serveAll rs (serve r s).2

/-- How a run ends. -/
inductive RunEnd where
  /-- The host's condition `STOP` held, so it issued no further `STEP` (R81). -/
  | stopped (s : State)
  /-- A step ended in a fault, which is the run's sticky outcome (R82). -/
  | faulted (f : Fault)
  /-- A refused step; no step of this model is refused. -/
  | refused (r : Refusal)
  /-- The bound on the number of steps was reached first. -/
  | running (s : State)
  deriving DecidableEq, Repr

/-- The driver: STEP until `STOP` holds (spec/00_scope.md R13, R81), for at most `fuel` steps. The spec leaves open
what `STOP` may depend on. DESIGN CHOICE (log entry 12): `stop n u` depends on the number `n` of steps this run has
completed and on the state `u` after them, so that a step count, the example of spec/92 D13, is one. A host that decides
by anything else (an earlier state, something outside the CORE) makes in any one run the decisions of such a function. -/
def drive (stop : Nat → State → Bool) : Nat → State → RunEnd
  | 0, s => if stop 0 s then .stopped s else .running s
  | fuel + 1, s =>
    if stop 0 s then .stopped s
    else
      match step s with
      | .next t => drive (fun n => stop (n + 1)) fuel t
      | .fault f => .faulted f
      | .refused r => .refused r

end Sys2Proof.Machine
end

