-- ==== Sys2Proof/Safety.lean ====
section
/-! DEFINITION. The terms that statements use: the invariant, what a safe run is, what a frame says, and the outcome
that the rules give a step, written out from spec/40_fetch_and_step.md without the model's fetch. -/

namespace Sys2Proof.Machine

/-- The invariant of every state: memory is in its canonical form and lists only cells that exist
(spec/10_state.md R31), and the parameters are as spec/00_scope.md R7 and R8 require. -/
abbrev State.wf (s : State) : Prop :=
  s.mem.wf ∧ s.mem.within s.config.maxOffset ∧ s.config.wf

/-- A run of `k` steps that meets no fault (spec/40_fetch_and_step.md R82: a fault ends a run). -/
def SafeFor (k : Nat) (s : State) : Prop := ∃ t, Sys2Proof.core.run k s = .next t

/-- No 16-bit access can be out of range and no register operand can raise `BadRegister` (R34, R61, R98). -/
abbrev NothingToFault (s : State) : Prop :=
  0x10000 ≤ s.config.maxOffset ∧ s.config.regIdPolicy = .mod8 ∧ s.config.ipDestPolicy = .write

/-- The operand byte that holds a register id. -/
abbrev idByte (id : RegId) : Byte := BitVec.ofNat 8 id.val

/-- The register-id operands of an instruction, in operand order (R73). -/
def regOperands : Instr → List Byte
  | .addRegToReg a b => [a, b]
  | .andRegToReg a b => [a, b]
  | .orRegToReg a b => [a, b]
  | .movLiteralToReg _ d => [d]
  | .movMemToReg _ d => [d]
  | .movRegToMem r _ => [r]
  | .movRegToReg a b => [a, b]
  | .noOp => []
  | .unknownOpcode _ => []

/-- The state with another snapshot window (spec/00_scope.md R12). -/
def State.withWindow (s : State) (wb wa : Nat) : State :=
  { s with config := { s.config with windowBefore := wb, windowAfter := wa } }

/-- Every register but one is as before. -/
abbrev SameRegsBut (d : Reg) (s t : State) : Prop := ∀ r, r ≠ d → t.reg r = s.reg r

/-- Every byte of memory reads as before. -/
abbrev SameBytes (s t : State) : Prop := ∀ a, t.mem.read a = s.mem.read a

/-- Every byte of memory outside the two cells of a 16-bit store at `ad` reads as before. -/
abbrev SameBytesBut16 (ad : Nat) (s t : State) : Prop :=
  ∀ a, a ≠ ad → a ≠ ad + 1 → t.mem.read a = s.mem.read a

/-- The cursor and the parameters are as before. -/
abbrev SameRest (s t : State) : Prop := t.cursor = s.cursor ∧ t.config = s.config

/-- A destination operand that the machine writes: it names the register `d`, and `d` is not IP under
`IP_DEST_POLICY = Fault` (R73). -/
abbrev WritableDest (c : Config) (operand : Byte) (d : Reg) : Prop :=
  ∃ id, operandId c operand = some id ∧ regOf c id = d ∧ (d = .ip → c.ipDestPolicy = .write)

/-- A source operand that names the register `r` (R61). -/
abbrev ReadableSource (c : Config) (operand : Byte) (r : Reg) : Prop :=
  ∃ id, operandId c operand = some id ∧ regOf c id = r

/-- The `OutOfBounds` fault of an operand fetch at `p`: the advances already made stand (R71). -/
def operandFault (s : State) (p : Word) (w : Width) : Result :=
  .fault (.outOfBounds p.toNat w .operandFetch (s.withIp p))

/-- The `OutOfBounds` fault of the opcode fetch: nothing changes (R70). -/
def opcodeFault (s : State) : Result := .fault (.outOfBounds s.ip.toNat .byte .opcodeFetch s)

/-- The step of a format RR opcode: the fetches at `a`, `a + 1` and `a + 2` modulo 2^16, then `k` on the operands and
the state with IP at `a + 3`. -/
def stepRR (s : State) (k : Byte → Byte → State → Result) : Result :=
  if s.config.maxOffset < s.ip.toNat then opcodeFault s
  else if s.config.maxOffset < (s.ip + 1).toNat then operandFault s (s.ip + 1) .byte
  else if s.config.maxOffset < (s.ip + 2).toNat then operandFault s (s.ip + 2) .byte
  else k (s.mem.read (s.ip + 1).toNat) (s.mem.read (s.ip + 2).toNat) (s.withIp (s.ip + 3))

/-- The step of a format WR opcode: a word at `a + 1`, then a byte at `a + 3`. -/
def stepWR (s : State) (k : Word → Byte → State → Result) : Result :=
  if s.config.maxOffset < s.ip.toNat then opcodeFault s
  else if s.config.maxOffset < (s.ip + 1).toNat + 1 then operandFault s (s.ip + 1) .word
  else if s.config.maxOffset < (s.ip + 3).toNat then operandFault s (s.ip + 3) .byte
  else
    k (wordOfBytes (s.mem.read (s.ip + 1).toNat) (s.mem.read ((s.ip + 1).toNat + 1)))
      (s.mem.read (s.ip + 3).toNat) (s.withIp (s.ip + 4))

/-- The step of a format RW opcode: a byte at `a + 1`, then a word at `a + 2`. -/
def stepRW (s : State) (k : Byte → Word → State → Result) : Result :=
  if s.config.maxOffset < s.ip.toNat then opcodeFault s
  else if s.config.maxOffset < (s.ip + 1).toNat then operandFault s (s.ip + 1) .byte
  else if s.config.maxOffset < (s.ip + 2).toNat + 1 then operandFault s (s.ip + 2) .word
  else
    k (s.mem.read (s.ip + 1).toNat)
      (wordOfBytes (s.mem.read (s.ip + 2).toNat) (s.mem.read ((s.ip + 2).toNat + 1))) (s.withIp (s.ip + 4))

/-- The execute phase that the three arithmetic and bitwise rules give (spec/41_alu.md R83 to R86): the checks in
operand order, both reads, then ACC. `u` is the state after the fetches. -/
def aluRule (f : Word → Word → Word) (a b : Byte) (u : State) : Result :=
  match operandId u.config a, operandId u.config b with
  | none, _ => .fault (.badRegister a.toNat u)
  | some _, none => .fault (.badRegister b.toNat u)
  | some i, some j => .next { u with regs := { u.regs with acc := f (u.rfRead i) (u.rfRead j) } }

/-- The check of a destination operand (R73), then `k` on the id it names. That `BadRegister` records the id of a
destination of IP, where R73 says 0 of id 0, is the model's reading for another `REGMAP` and for a byte that `Mod8`
reduces (DEDUCED, log entries 2 and 19). -/
def destRule (d : Byte) (u : State) (k : RegId → Result) : Result :=
  match operandId u.config d with
  | none => .fault (.badRegister d.toNat u)
  | some id =>
    if regOf u.config id = .ip ∧ u.config.ipDestPolicy = .fault then .fault (.badRegister id.val u) else k id

/-- The first operand of a schema whose bytes are not all in range, with the IP it is fetched from (R71). -/
def firstOutOfRange (maxOffset : Nat) : List Width → Word → Option (Word × Width)
  | [], _ => none
  | w :: ws, p =>
    if maxOffset < p.toNat + w.bytes - 1 then some (p, w)
    else firstOutOfRange maxOffset ws (p + BitVec.ofNat 16 w.bytes)

end Sys2Proof.Machine
end

