-- ==== Sys2Proof/Certificates/Slice0/Obligations.lean ====
section
/-! DEFINITION. The statements for the provers, each from a numbered rule of spec/ or derived from the sections its
entry of OBLIGATIONS.json names. A statement over every state holds for every value of the parameters `MAX_OFFSET`,
`OPC`, `REGMAP`, `REG_ID_POLICY`, `IP_DEST_POLICY` and `WINDOW`, and for every `MEM0`: a state carries them. -/

open Sys2Proof Sys2Proof.Machine

/-! Encoding. -/

/-- Decoding the encoding of a well-formed instruction gives it back and consumes exactly its bytes (R58, R59, R65). -/
def Obligations.DecodeOfEncodeGivesTheInstruction : Prop :=
  ∀ (c : Opc) (i : Instr) (rest : List Byte), c.wf → i.wf c = true → decode c (encode c i ++ rest) = .ok (i, rest)

/-- Whatever the decoder reads was written by the encoder from a well-formed instruction: each list of bytes has one
meaning, and no bit of it is ignored (R59, R64). -/
def Obligations.DecodedBytesAreTheEncoding : Prop :=
  ∀ (c : Opc) (bs rest : List Byte) (i : Instr),
    decode c bs = .ok (i, rest) → bs = encode c i ++ rest ∧ i.wf c = true

/-- The four formats (R59): every field is a whole byte or a big-endian byte pair, in fetch order. -/
def Obligations.FormatsByteByByte : Prop :=
  ∀ (c : Opc) (a b hi lo : Byte),
    encode c (.addRegToReg a b) = [c.addRegToReg, a, b] ∧
    encode c (.andRegToReg a b) = [c.andRegToReg, a, b] ∧
    encode c (.orRegToReg a b) = [c.orRegToReg, a, b] ∧
    encode c (.movRegToReg a b) = [c.movRegToReg, a, b] ∧
    encode c (.movLiteralToReg (wordOfBytes hi lo) b) = [c.movLiteralToReg, hi, lo, b] ∧
    encode c (.movMemToReg (wordOfBytes hi lo) b) = [c.movMemToReg, hi, lo, b] ∧
    encode c (.movRegToMem a (wordOfBytes hi lo)) = [c.movRegToMem, a, hi, lo] ∧
    encode c .noOp = [c.noOp] ∧ encode c (.unknownOpcode a) = [a]

/-- R63: every byte outside the image of `OPC` decodes as a one-byte instruction with no effect of its own; under the
reference assignment these are 249 of the 256 bytes; and no byte value is illegal. -/
def Obligations.BytesOutsideOpcDecodeAsNoOp : Prop :=
  (∀ (c : Opc) (b : Byte) (rest : List Byte), b ∉ c.effectBytes →
    ∃ i, decode c (b :: rest) = .ok (i, rest) ∧ (i = .noOp ∨ i = .unknownOpcode b) ∧
      ∀ s : State, exec i s = .next s) ∧
  ((List.range 256).filter fun n => decide (BitVec.ofNat 8 n ∉ Opc.reference.effectBytes)).length = 249 ∧
  ∀ (c : Opc) (b x y z : Byte), ∃ i rest, decode c [b, x, y, z] = .ok (i, rest)

/-- R58: an instruction is 1, 3 or 4 bytes long, and the opcode byte alone decides which. -/
def Obligations.LengthDecidedByTheOpcodeByte : Prop :=
  ∀ (c : Opc) (b : Byte) (rest rest' : List Byte) (i : Instr), decode c (b :: rest) = .ok (i, rest') →
    (b :: rest).length = (decodeOpcode c b).length + rest'.length ∧
    ((decodeOpcode c b).length = 1 ∨ (decodeOpcode c b).length = 3 ∨ (decodeOpcode c b).length = 4)

/-- The decoder's table (R65): each byte of a well-formed `OPC` decodes to its own mnemonic and schema, and every other
byte to the empty schema. -/
def Obligations.OpcodeBytesDecodeToTheirSchemas : Prop :=
  ∀ c : Opc, c.wf →
    (decodeOpcode c c.addRegToReg = .addRegToReg ∧ Opcode.addRegToReg.schema = [.byte, .byte]) ∧
    (decodeOpcode c c.andRegToReg = .andRegToReg ∧ Opcode.andRegToReg.schema = [.byte, .byte]) ∧
    (decodeOpcode c c.orRegToReg = .orRegToReg ∧ Opcode.orRegToReg.schema = [.byte, .byte]) ∧
    (decodeOpcode c c.movRegToReg = .movRegToReg ∧ Opcode.movRegToReg.schema = [.byte, .byte]) ∧
    (decodeOpcode c c.movLiteralToReg = .movLiteralToReg ∧ Opcode.movLiteralToReg.schema = [.word, .byte]) ∧
    (decodeOpcode c c.movMemToReg = .movMemToReg ∧ Opcode.movMemToReg.schema = [.word, .byte]) ∧
    (decodeOpcode c c.movRegToMem = .movRegToMem ∧ Opcode.movRegToMem.schema = [.byte, .word]) ∧
    ∀ b, b ∉ c.effectBytes → (decodeOpcode c b).schema = []

/-- A few words of the spec's examples (spec/95_test_vectors.md) decode to the instructions they stand for, under the
spec's reference assignment, which is its own choice (log entry 1). -/
def Obligations.ExampleWordsDecode : Prop :=
  decodeTableWord 24 0x100203 = some (.addRegToReg 0x02 0x03) ∧
  decodeTableWord 24 0x110202 = some (.andRegToReg 0x02 0x02) ∧
  decodeTableWord 24 0x120405 = some (.orRegToReg 0x04 0x05) ∧
  decodeTableWord 32 0x1300AB02 = some (.movLiteralToReg 0x00AB 0x02) ∧
  decodeTableWord 32 0x14102305 = some (.movMemToReg 0x1023 0x05) ∧
  decodeTableWord 32 0x15020100 = some (.movRegToMem 0x02 0x0100) ∧
  decodeTableWord 24 0x160207 = some (.movRegToReg 0x02 0x07) ∧
  decodeTableWord 8 0x00 = some .noOp ∧
  decodeTableWord 8 0xFF = some (.unknownOpcode 0xFF)

/-- The listing form (R66): exactly the instructions with a known opcode and register ids of at most 7 have a line
(the model's reading, DEDUCED, log entry 20); the line is the mnemonic and then the operands in fetch order, registers
by name and a 16-bit operand as its two bytes high-first; a line reads back as the instruction; and a 16-bit operand
written as one value reads as its two bytes do. -/
def Obligations.ListingReadsBack : Prop :=
  ∀ c : Config,
    (∀ i : Instr, (listing c i).isSome = true ↔
      (∀ b, i ≠ .unknownOpcode b) ∧ ∀ r ∈ regOperands i, r.toNat ≤ 7) ∧
    (∀ (x y : RegId) (hi lo : Byte),
      listing c (.addRegToReg (idByte x) (idByte y)) =
        some [.mnemonic .addRegToReg, .reg (regOf c x), .reg (regOf c y)] ∧
      listing c (.andRegToReg (idByte x) (idByte y)) =
        some [.mnemonic .andRegToReg, .reg (regOf c x), .reg (regOf c y)] ∧
      listing c (.orRegToReg (idByte x) (idByte y)) =
        some [.mnemonic .orRegToReg, .reg (regOf c x), .reg (regOf c y)] ∧
      listing c (.movLiteralToReg (wordOfBytes hi lo) (idByte x)) =
        some [.mnemonic .movLiteralToReg, .byte hi, .byte lo, .reg (regOf c x)] ∧
      listing c (.movMemToReg (wordOfBytes hi lo) (idByte x)) =
        some [.mnemonic .movMemToReg, .byte hi, .byte lo, .reg (regOf c x)] ∧
      listing c (.movRegToMem (idByte x) (wordOfBytes hi lo)) =
        some [.mnemonic .movRegToMem, .reg (regOf c x), .byte hi, .byte lo] ∧
      listing c (.movRegToReg (idByte x) (idByte y)) =
        some [.mnemonic .movRegToReg, .reg (regOf c x), .reg (regOf c y)] ∧
      listing c .noOp = some [.mnemonic .noOp]) ∧
    (c.wf → ∀ (i : Instr) (ts : List Token), listing c i = some ts → parseListing c ts = some i) ∧
    (c.wf → ∀ (x : RegId) (w : Word),
      parseListing c [.mnemonic .movLiteralToReg, .word w, .reg (regOf c x)] =
        some (.movLiteralToReg w (idByte x)) ∧
      parseListing c [.mnemonic .movLiteralToReg, .byte (hiByte w), .byte (loByte w), .reg (regOf c x)] =
        some (.movLiteralToReg w (idByte x)) ∧
      parseListing c [.mnemonic .movMemToReg, .word w, .reg (regOf c x)] = some (.movMemToReg w (idByte x)) ∧
      parseListing c [.mnemonic .movMemToReg, .byte (hiByte w), .byte (loByte w), .reg (regOf c x)] =
        some (.movMemToReg w (idByte x)) ∧
      parseListing c [.mnemonic .movRegToMem, .reg (regOf c x), .word w] = some (.movRegToMem (idByte x) w) ∧
      parseListing c [.mnemonic .movRegToMem, .reg (regOf c x), .byte (hiByte w), .byte (loByte w)] =
        some (.movRegToMem (idByte x) w))

/-! Memory. -/

/-- R34 and R35: a byte access is in range iff `a <= MAX_OFFSET`, a 16-bit access iff `a + 1 <= MAX_OFFSET`, with the
sum unwrapped; out of range, each of the four accesses raises `OutOfBounds` with its address and width. -/
def Obligations.AccessesSucceedExactlyInRange : Prop :=
  ∀ (s : State) (a : Nat) (b : Byte) (w : Word),
    (a ≤ s.config.maxOffset →
      (∃ v, s.loadByte a = .ok v) ∧ (∃ t, s.storeByte a b = .ok t)) ∧
    (s.config.maxOffset < a →
      s.loadByte a = .error ⟨a, .byte⟩ ∧ s.storeByte a b = .error ⟨a, .byte⟩) ∧
    (a + 1 ≤ s.config.maxOffset →
      (∃ v, s.load16 a = .ok v) ∧ (∃ t, s.store16 a w = .ok t)) ∧
    (s.config.maxOffset < a + 1 →
      s.load16 a = .error ⟨a, .word⟩ ∧ s.store16 a w = .error ⟨a, .word⟩)

/-- R37 and R38: what the two loads return, and what they answer at the loader port, where they leave the state as it
was (R57, R78). `M[a]` is the high byte of the word. -/
def Obligations.LoadsReadTheirCells : Prop :=
  ∀ (s : State) (a : Nat),
    s.loadByte a = (if a ≤ s.config.maxOffset then .ok (s.mem.read a) else .error ⟨a, .byte⟩) ∧
    (a ≤ s.config.maxOffset → serve (.loadByte a) s = (.byte (s.mem.read a), s)) ∧
    (s.config.maxOffset < a → serve (.loadByte a) s = (.outOfBounds a .byte, s)) ∧
    (a + 1 ≤ s.config.maxOffset → ∃ v, s.load16 a = .ok v ∧ serve (.load16 a) s = (.word v, s) ∧
      v.extractLsb' 8 8 = s.mem.read a ∧ v.extractLsb' 0 8 = s.mem.read (a + 1)) ∧
    (s.config.maxOffset < a + 1 →
      s.load16 a = .error ⟨a, .word⟩ ∧ serve (.load16 a) s = (.outOfBounds a .word, s))

/-- R39 and R40: a store in range writes its one or two cells, the high byte first, and nothing else; a store out of
range answers `OutOfBounds`. At the loader port (R57, R78) the first answers `Ok` in that state, and the second
`OutOfBounds` in the very state of the request, so nothing is written, the cell at `a = MAX_OFFSET` included. -/
def Obligations.StoresWriteTheirCellsOnly : Prop :=
  ∀ (s : State) (a : Nat) (b : Byte) (w : Word), s.mem.wf →
    (a ≤ s.config.maxOffset → ∃ t, s.storeByte a b = .ok t ∧ serve (.storeByte a b) s = (.ok, t) ∧
      t.mem.read a = b ∧ (∀ x, x ≠ a → t.mem.read x = s.mem.read x) ∧ t.regs = s.regs ∧ SameRest s t) ∧
    (s.config.maxOffset < a →
      s.storeByte a b = .error ⟨a, .byte⟩ ∧ serve (.storeByte a b) s = (.outOfBounds a .byte, s)) ∧
    (a + 1 ≤ s.config.maxOffset → ∃ t, s.store16 a w = .ok t ∧ serve (.store16 a w) s = (.ok, t) ∧
      t.mem.read a = w.extractLsb' 8 8 ∧ t.mem.read (a + 1) = w.extractLsb' 0 8 ∧
      SameBytesBut16 a s t ∧ t.regs = s.regs ∧ SameRest s t) ∧
    (s.config.maxOffset < a + 1 →
      s.store16 a w = .error ⟨a, .word⟩ ∧ serve (.store16 a w) s = (.outOfBounds a .word, s))

/-- R42: a load after a store at the same address returns the value stored, for both widths. -/
def Obligations.LoadAfterStoreReturnsTheValue : Prop :=
  ∀ (s : State) (a : Nat) (b : Byte) (v : Word), s.mem.wf →
    (a + 1 ≤ s.config.maxOffset → ∃ t, s.store16 a v = .ok t ∧ t.load16 a = .ok v) ∧
    (a ≤ s.config.maxOffset → ∃ t, s.storeByte a b = .ok t ∧ t.loadByte a = .ok b)

/-- R43: every 16-bit quantity is big-endian, in data loads, in data stores as byte loads see them, and in the 16-bit
operands that the fetch reads. -/
def Obligations.EverySixteenBitQuantityIsBigEndian : Prop :=
  ∀ (s : State) (a : Nat) (w : Word), s.mem.wf →
    (a + 1 ≤ s.config.maxOffset →
      (∃ v, s.load16 a = .ok v ∧ v.toNat = 256 * (s.mem.read a).toNat + (s.mem.read (a + 1)).toNat) ∧
      (∃ t, s.store16 a w = .ok t ∧ t.loadByte a = .ok (w.extractLsb' 8 8) ∧
        t.loadByte (a + 1) = .ok (w.extractLsb' 0 8))) ∧
    (s.ip.toNat + 1 ≤ s.config.maxOffset → ∃ v t, fetchWord .operandFetch s = .done v t ∧
      v.toNat = 256 * (s.mem.read s.ip.toNat).toNat + (s.mem.read (s.ip.toNat + 1)).toNat)

/-- The model's canonical form (log entry 6): two memories in it that read alike are the same memory. -/
def Obligations.CanonicalMemoriesThatReadAlikeAreEqual : Prop :=
  ∀ m m' : Memory, m.wf → m'.wf → (∀ a, m.read a = m'.read a) → m = m'

/-- `MEM0` is a free argument (R11): every contents of the cells `0..n` is the contents of some memory in the model's
canonical form, so a statement over every state holds for every `MEM0` (log entry 6). -/
def Obligations.EveryInitialContentsIsAMemory : Prop :=
  ∀ (n : Nat) (mem0 : Nat → Byte),
    ∃ m : Memory, m.wf ∧ m.within n ∧ ∀ a, a ≤ n → m.read a = mem0 a

/-- R55 and R56: a push stores at the cursor and advances it by its width; a push out of range answers `OutOfBounds`
with the cursor as its address. At the loader port (R57, R78) the first answers `Ok` in that state, and the second
`OutOfBounds` in the very state of the request, cursor and memory included. -/
def Obligations.PushesStoreAtTheCursor : Prop :=
  ∀ (s : State) (b : Byte) (w : Word), s.mem.wf →
    (s.cursor ≤ s.config.maxOffset → ∃ t, s.pushByte b = .ok t ∧ serve (.pushByte b) s = (.ok, t) ∧
      t.mem.read s.cursor = b ∧ (∀ x, x ≠ s.cursor → t.mem.read x = s.mem.read x) ∧ t.cursor = s.cursor + 1 ∧
      t.regs = s.regs ∧ t.config = s.config) ∧
    (s.config.maxOffset < s.cursor →
      s.pushByte b = .error ⟨s.cursor, .byte⟩ ∧ serve (.pushByte b) s = (.outOfBounds s.cursor .byte, s)) ∧
    (s.cursor + 1 ≤ s.config.maxOffset → ∃ t, s.push16 w = .ok t ∧ serve (.push16 w) s = (.ok, t) ∧
      t.mem.read s.cursor = w.extractLsb' 8 8 ∧ t.mem.read (s.cursor + 1) = w.extractLsb' 0 8 ∧
      SameBytesBut16 s.cursor s t ∧ t.cursor = s.cursor + 2 ∧ t.regs = s.regs ∧ t.config = s.config) ∧
    (s.config.maxOffset < s.cursor + 1 →
      s.push16 w = .error ⟨s.cursor, .word⟩ ∧ serve (.push16 w) s = (.outOfBounds s.cursor .word, s))

/-! Registers and reset. -/

/-- R19: a register write stores its value modulo 2^16, whatever the value, and changes no other register and nothing
else. -/
def Obligations.RegisterWriteIsModulo : Prop :=
  ∀ (s : State) (id : RegId) (v : Nat), s.config.wf →
    ((s.rfWrite id v).rfRead id).toNat = v % 2 ^ 16 ∧
    (∀ id', id' ≠ id → (s.rfWrite id v).rfRead id' = s.rfRead id') ∧
    (s.rfWrite id v).mem = s.mem ∧ SameRest s (s.rfWrite id v)

/-- R61: a register-id operand of at most 7 names the register of that id; of 8 or more it raises `BadRegister` with
itself under `REG_ID_POLICY = Fault`, and names the register of its value modulo 8 under `Mod8`. In the listing order
ids 0 to 7 are IP, ACC, R1 to R6. -/
def Obligations.RegisterOperandInterpretation : Prop :=
  ∀ (c : Config) (r : Byte),
    (r.toNat ≤ 7 → ∃ id : RegId, id.val = r.toNat ∧ operandId c r = some id) ∧
    (8 ≤ r.toNat → c.regIdPolicy = .fault → operandId c r = none ∧
      ∀ (s : State) (k : Reg → Result), s.config = c →
        withSource s r k = .fault (.badRegister r.toNat s) ∧ withDest s r k = .fault (.badRegister r.toNat s)) ∧
    (8 ≤ r.toNat → c.regIdPolicy = .mod8 → ∃ id : RegId, id.val = r.toNat % 8 ∧ operandId c r = some id) ∧
    (c.regMap = Config.listingOrder →
      regOf c 0 = .ip ∧ regOf c 1 = .acc ∧ regOf c 2 = .r1 ∧ regOf c 3 = .r2 ∧
      regOf c 4 = .r3 ∧ regOf c 5 = .r4 ∧ regOf c 6 = .r5 ∧ regOf c 7 = .r6)

/-- R23: all eight registers are 0 at reset, for every construction; in particular IP and ACC. -/
def Obligations.ResetZeroesEveryRegister : Prop :=
  ∀ (c : Config) (mem0 : Memory),
    (∀ r, (State.construct c mem0).reg r = 0) ∧ (State.construct c mem0).ip = 0 ∧ ∀ r, State.reset.reg r = 0

/-- R114: after reset the first opcode is fetched at address 0. -/
def Obligations.FirstOpcodeIsFetchedAtZero : Prop :=
  ∀ (c : Config) (mem0 : Memory),
    fetchByte .opcodeFetch (State.construct c mem0) =
      .done (mem0.read 0) ((State.construct c mem0).withIp 1)

/-- The invariant holds after every construction from well-formed parameters and contents, and at `State.reset`
(whose parameters and empty memory are the model's choice, log entries 1 to 6). -/
def Obligations.ResetStateIsWellFormed : Prop :=
  State.reset.wf ∧
  ∀ (c : Config) (mem0 : Memory), c.wf → mem0.wf → mem0.within c.maxOffset → (State.construct c mem0).wf

/-! Fetch and step. -/

/-- R67: `fetch(1)` and `fetch(2)` read at IP, which they advance by 1 or 2 modulo 2^16 only after a read that
succeeds; a read that fails raises `OutOfBounds` with IP and the width, and changes nothing. -/
def Obligations.FetchAdvancesOnlyAfterARead : Prop :=
  ∀ (s : State) (ph : Phase),
    (s.ip.toNat ≤ s.config.maxOffset →
      ∃ p : Word, p.toNat = (s.ip.toNat + 1) % 2 ^ 16 ∧
        fetchByte ph s = .done (s.mem.read s.ip.toNat) (s.withIp p)) ∧
    (s.config.maxOffset < s.ip.toNat → fetchByte ph s = .stop (.outOfBounds s.ip.toNat .byte ph s)) ∧
    (s.ip.toNat + 1 ≤ s.config.maxOffset →
      ∃ (v p : Word), v.toNat = 256 * (s.mem.read s.ip.toNat).toNat + (s.mem.read (s.ip.toNat + 1)).toNat ∧
        p.toNat = (s.ip.toNat + 2) % 2 ^ 16 ∧ fetchWord ph s = .done v (s.withIp p)) ∧
    (s.config.maxOffset < s.ip.toNat + 1 → fetchWord ph s = .stop (.outOfBounds s.ip.toNat .word ph s))

/-- R70: a step that begins with IP above `MAX_OFFSET` faults in its opcode fetch and changes no state. -/
def Obligations.OpcodeFetchFaultChangesNothing : Prop :=
  ∀ s : State, s.config.maxOffset < s.ip.toNat →
    step s = .fault (.outOfBounds s.ip.toNat .byte .opcodeFetch s)

/-- R71: after a good opcode fetch, the first operand whose bytes are not in range faults with the IP it is fetched
from and its width; IP keeps the advances of the fetches before it and nothing else has changed. With every operand in
range the step is the execute phase of some instruction on the state after all fetches. -/
def Obligations.OperandFetchFaultKeepsEarlierAdvances : Prop :=
  ∀ s : State, s.ip.toNat ≤ s.config.maxOffset →
    (∀ p w, firstOutOfRange s.config.maxOffset s.opcodeAtIp.schema (s.ip + 1) = some (p, w) →
      step s = .fault (.outOfBounds p.toNat w .operandFetch (s.withIp p))) ∧
    (firstOutOfRange s.config.maxOffset s.opcodeAtIp.schema (s.ip + 1) = none →
      ∃ i : Instr, i.opcode = s.opcodeAtIp ∧
        step s = exec i (s.withIp (s.ip + BitVec.ofNat 16 s.opcodeAtIp.length)))

/-- A step runs the decoded instruction: when the bytes at IP are in range and decode to `i`, the step is the execute
phase of `i` on the state whose IP is past the instruction (R69, R74). -/
def Obligations.StepRunsTheDecodedInstruction : Prop :=
  ∀ (s : State) (i : Instr), (∀ a ∈ instrAddresses s.opcodeAtIp s.ip, a ≤ s.config.maxOffset) →
    decode s.config.opc s.instrBytes = .ok (i, []) →
    step s = exec i (s.withIp (s.ip + BitVec.ofNat 16 i.opcode.length))

/-- A step runs the instruction whose encoding lies at IP. -/
def Obligations.StepRunsTheEncodedInstruction : Prop :=
  ∀ (s : State) (i : Instr), s.config.wf → i.wf s.config.opc = true →
    (∀ a ∈ instrAddresses i.opcode s.ip, a ≤ s.config.maxOffset) →
    s.bytesAt (instrAddresses i.opcode s.ip) = encode s.config.opc i →
    step s = exec i (s.withIp (s.ip + BitVec.ofNat 16 i.opcode.length))

/-- The model's placing of an instruction for the next step (log entry 17): the loader writes it stands for change only
the instruction's own cells, and the next step fetches and runs exactly that instruction. -/
def Obligations.PlacedInstructionRunsNext : Prop :=
  ∀ (s : State) (i : Instr) (pad : List Byte), s.wf → i.wf s.config.opc = true →
    (∀ a ∈ instrAddresses i.opcode s.ip, a ≤ s.config.maxOffset) →
    let t := s.placeInstr (encode s.config.opc i ++ pad)
    t.regs = s.regs ∧ SameRest s t ∧
    (∀ a, a ∉ instrAddresses i.opcode s.ip → t.mem.read a = s.mem.read a) ∧
    step t = exec i (t.withIp (s.ip + BitVec.ofNat 16 i.opcode.length))

/-! What each instruction does when it completes, and what it leaves unchanged. -/

/-- `ADD_REG_TO_REG` completes whenever both operands name registers: ACC gets the sum modulo 2^16, and nothing else
changes. -/
def Obligations.AddCompletesIntoAcc : Prop :=
  ∀ (s : State) (a b : Byte) (ra rb : Reg), ReadableSource s.config a ra → ReadableSource s.config b rb →
    exec (.addRegToReg a b) s =
      .next { s with regs := { s.regs with
        acc := BitVec.ofNat 16 (((s.reg ra).toNat + (s.reg rb).toNat) % 2 ^ 16) } }

/-- `AND_REG_TO_REG` completes whenever both operands name registers: ACC gets the bitwise AND, and nothing else
changes. -/
def Obligations.AndCompletesIntoAcc : Prop :=
  ∀ (s : State) (a b : Byte) (ra rb : Reg), ReadableSource s.config a ra → ReadableSource s.config b rb →
    exec (.andRegToReg a b) s = .next { s with regs := { s.regs with acc := s.reg ra &&& s.reg rb } }

/-- `OR_REG_TO_REG` completes whenever both operands name registers: ACC gets the bitwise OR, and nothing else
changes. -/
def Obligations.OrCompletesIntoAcc : Prop :=
  ∀ (s : State) (a b : Byte) (ra rb : Reg), ReadableSource s.config a ra → ReadableSource s.config b rb →
    exec (.orRegToReg a b) s = .next { s with regs := { s.regs with acc := s.reg ra ||| s.reg rb } }

/-- `MOV_LITERAL_TO_REG` completes whenever its destination is writable: the register gets the literal, and nothing
else changes. -/
def Obligations.MovLiteralCompletes : Prop :=
  ∀ (s : State) (w : Word) (operand : Byte) (d : Reg), WritableDest s.config operand d →
    ∃ t, exec (.movLiteralToReg w operand) s = .next t ∧
      t.reg d = w ∧ SameRegsBut d s t ∧ SameBytes s t ∧ SameRest s t

/-- `MOV_MEM_TO_REG` completes whenever its destination is writable and both data bytes are in range: the register gets
their big-endian word, and nothing else changes. -/
def Obligations.MovMemCompletes : Prop :=
  ∀ (s : State) (ad : Word) (operand : Byte) (d : Reg), WritableDest s.config operand d →
    ad.toNat + 1 ≤ s.config.maxOffset →
    ∃ t, exec (.movMemToReg ad operand) s = .next t ∧
      (t.reg d).toNat = 256 * (s.mem.read ad.toNat).toNat + (s.mem.read (ad.toNat + 1)).toNat ∧
      SameRegsBut d s t ∧ SameBytes s t ∧ SameRest s t

/-- `MOV_REG_TO_MEM` completes whenever its source names a register and both data bytes are in range: the cells at
`dataAddress ad` and after it get the high and the low byte, and no other byte and no register changes. -/
def Obligations.MovToMemCompletes : Prop :=
  ∀ (s : State) (ad : Word) (operand : Byte) (r : Reg), s.mem.wf → ReadableSource s.config operand r →
    dataAddress ad + 1 ≤ s.config.maxOffset →
    ∃ t, exec (.movRegToMem operand ad) s = .next t ∧
      t.mem.read (dataAddress ad) = (s.reg r).extractLsb' 8 8 ∧
      t.mem.read (dataAddress ad + 1) = (s.reg r).extractLsb' 0 8 ∧
      SameBytesBut16 (dataAddress ad) s t ∧ t.regs = s.regs ∧ SameRest s t

/-- `MOV_REG_TO_REG` completes whenever its source names a register and its destination is writable: the destination
gets the source's value before the write, and nothing else changes. -/
def Obligations.MovRegCompletes : Prop :=
  ∀ (s : State) (a b : Byte) (r d : Reg), ReadableSource s.config a r → WritableDest s.config b d →
    ∃ t, exec (.movRegToReg a b) s = .next t ∧
      t.reg d = s.reg r ∧ SameRegsBut d s t ∧ SameBytes s t ∧ SameRest s t

/-- `NO_OP` and every unknown opcode complete in every state and change nothing beyond the fetch. -/
def Obligations.NoOpAndUnknownComplete : Prop :=
  ∀ (s : State) (op : Byte), exec .noOp s = .next s ∧ exec (.unknownOpcode op) s = .next s

/-! The whole step of each instruction, faults included, as its rule gives it. -/

/-- R84: the step of `ADD_REG_TO_REG`, with every fault its rule names. -/
def Obligations.AddStepFollowsItsRule : Prop :=
  ∀ s : State, s.config.wf → s.mem.read s.ip.toNat = s.config.opc.addRegToReg →
    step s = stepRR s (aluRule fun x y => BitVec.ofNat 16 ((x.toNat + y.toNat) % 2 ^ 16))

/-- R85: the step of `AND_REG_TO_REG`. -/
def Obligations.AndStepFollowsItsRule : Prop :=
  ∀ s : State, s.config.wf → s.mem.read s.ip.toNat = s.config.opc.andRegToReg →
    step s = stepRR s (aluRule fun x y => x &&& y)

/-- R86: the step of `OR_REG_TO_REG`. -/
def Obligations.OrStepFollowsItsRule : Prop :=
  ∀ s : State, s.config.wf → s.mem.read s.ip.toNat = s.config.opc.orRegToReg →
    step s = stepRR s (aluRule fun x y => x ||| y)

/-- The step of `MOV_LITERAL_TO_REG` as R89 and R73 give it, with two points that are the model's choice (DEDUCED): a
destination of IP under `IP_DEST_POLICY = Fault` records its register id, which R73 says only of id 0 (log entry 19; log
entry 2 for the id that another `REGMAP` gives to IP); and the low byte of a literal at 0xFFFF is cell 0x10000 (log
entry 16). -/
def Obligations.MovLiteralStepFollowsItsRule : Prop :=
  ∀ s : State, s.config.wf → s.mem.read s.ip.toNat = s.config.opc.movLiteralToReg →
    step s = stepWR s fun w d u => destRule d u fun id => .next (u.rfWrite id w.toNat)

/-- The step of `MOV_MEM_TO_REG` as R90 and R73 give it, the check before the load (R103), with two points that are the
model's choice (DEDUCED): a destination of IP under `IP_DEST_POLICY = Fault` records its register id, which R73 says
only of id 0 (log entries 19 and 2); and the low byte of an address operand at 0xFFFF is cell 0x10000 (log
entry 16). -/
def Obligations.MovMemStepFollowsItsRule : Prop :=
  ∀ s : State, s.config.wf → s.mem.read s.ip.toNat = s.config.opc.movMemToReg →
    step s = stepWR s fun ad d u => destRule d u fun id =>
      if u.config.maxOffset < ad.toNat + 1 then .fault (.outOfBounds ad.toNat .word .dataLoad u)
      else .next (u.rfWrite id (256 * (u.mem.read ad.toNat).toNat + (u.mem.read (ad.toNat + 1)).toNat))

/-- The step of `MOV_REG_TO_MEM` as R91 gives it, with one point that is the model's choice (DEDUCED, log entry 16): the
low byte of an address operand at 0xFFFF is cell 0x10000. -/
def Obligations.MovToMemStepFollowsItsRule : Prop :=
  ∀ s : State, s.config.wf → s.mem.read s.ip.toNat = s.config.opc.movRegToMem →
    step s = stepRW s fun r ad u =>
      match operandId u.config r with
      | none => .fault (.badRegister r.toNat u)
      | some id =>
        if u.config.maxOffset < ad.toNat + 1 then .fault (.outOfBounds ad.toNat .word .dataStore u)
        else .next (u.withMem ((u.mem.write ad.toNat ((u.rfRead id).extractLsb' 8 8)).write (ad.toNat + 1)
          ((u.rfRead id).extractLsb' 0 8)))

/-- The step of `MOV_REG_TO_REG` as R92 and R73 give it, with one point that is the model's choice (DEDUCED): a
destination of IP under `IP_DEST_POLICY = Fault` records its register id, which R73 says only of id 0 (log entries 19
and 2). -/
def Obligations.MovRegStepFollowsItsRule : Prop :=
  ∀ s : State, s.config.wf → s.mem.read s.ip.toNat = s.config.opc.movRegToReg →
    step s = stepRR s fun a b u =>
      match operandId u.config a with
      | none => .fault (.badRegister a.toNat u)
      | some i => destRule b u fun id => .next (u.rfWrite id (u.rfRead i).toNat)

/-- R95 and R96: a step on a byte outside `OPC` advances IP by exactly 1 modulo 2^16 and changes nothing else, whatever
bytes follow; its one fault is that of the opcode fetch. -/
def Obligations.NoOpStepFollowsItsRule : Prop :=
  ∀ s : State, s.mem.read s.ip.toNat ∉ s.config.opc.effectBytes →
    step s = if s.config.maxOffset < s.ip.toNat then opcodeFault s else .next (s.withIp (s.ip + 1))

/-! Checks, control transfer, faults. -/

/-- `BadRegister` is raised for a register-id operand of 8 or more under `REG_ID_POLICY = Fault`, the first one in
operand order, and for a destination that names IP under `IP_DEST_POLICY = Fault`; it leaves the state of the execute
phase as it was (R73, R100). The model's choice (DEDUCED, log entries 19 and 2): the second kind records the register id
that names IP, whatever the `REGMAP` and also for a byte that `Mod8` reduced; R100 says 0 of id 0, which is
`Obligations.BadRegisterInTheListingOrder`. -/
def Obligations.BadRegisterIsRaisedByTheChecks : Prop :=
  ∀ (s : State) (a b : Byte) (w : Word),
    (s.config.regIdPolicy = .fault → 8 ≤ a.toNat →
      ∀ i ∈ [Instr.addRegToReg a b, .andRegToReg a b, .orRegToReg a b, .movRegToReg a b,
          .movLiteralToReg w a, .movMemToReg w a, .movRegToMem a w],
        exec i s = .fault (.badRegister a.toNat s)) ∧
    (s.config.regIdPolicy = .fault → a.toNat ≤ 7 → 8 ≤ b.toNat →
      ∀ i ∈ [Instr.addRegToReg a b, .andRegToReg a b, .orRegToReg a b, .movRegToReg a b],
        exec i s = .fault (.badRegister b.toNat s)) ∧
    (s.config.ipDestPolicy = .fault → ∀ id : RegId, operandId s.config b = some id → regOf s.config id = .ip →
      (∀ i ∈ [Instr.movLiteralToReg w b, .movMemToReg w b], exec i s = .fault (.badRegister id.val s)) ∧
      ∀ r, ReadableSource s.config a r → exec (.movRegToReg a b) s = .fault (.badRegister id.val s))

/-- R26: in the execute phase IP changes only when a move names it as its destination. Under `IP_DEST_POLICY = Write`
that write sets IP to the value; under `Fault` the step raises `BadRegister` and writes nothing (R26). The id that names
IP is 0 in the listing order; that it is IP's id for another `REGMAP`, and that it is the `addr` the fault records, is
the model's choice (DEDUCED, log entries 2 and 19). -/
def Obligations.IpChangesOnlyAsANamedDestination : Prop :=
  (∀ (i : Instr) (u t : State), exec i u = .next t → t.ip ≠ u.ip →
    u.config.ipDestPolicy = .write ∧ ∃ d id, operandId u.config d = some id ∧ regOf u.config id = .ip ∧
      ((∃ w, i = .movLiteralToReg w d) ∨ (∃ ad, i = .movMemToReg ad d) ∨ ∃ r, i = .movRegToReg r d)) ∧
  ∀ (u : State) (d : Byte) (id : RegId), operandId u.config d = some id → regOf u.config id = .ip →
    (u.config.ipDestPolicy = .write →
      (∀ w, exec (.movLiteralToReg w d) u = .next (u.withIp w)) ∧
      (∀ ad : Word, ad.toNat + 1 ≤ u.config.maxOffset → exec (.movMemToReg ad d) u =
        .next (u.withIp (wordOfBytes (u.mem.read ad.toNat) (u.mem.read (ad.toNat + 1))))) ∧
      ∀ a r, ReadableSource u.config a r → exec (.movRegToReg a d) u = .next (u.withIp (u.reg r))) ∧
    (u.config.ipDestPolicy = .fault →
      (∀ w, exec (.movLiteralToReg w d) u = .fault (.badRegister id.val u)) ∧
      (∀ ad, exec (.movMemToReg ad d) u = .fault (.badRegister id.val u)) ∧
      ∀ a r, ReadableSource u.config a r → exec (.movRegToReg a d) u = .fault (.badRegister id.val u))

/-- After a step that ends `Ok`, IP is past the instruction unless the step is a move that may write IP (R74). -/
def Obligations.CompletedStepLeavesIpPastTheInstruction : Prop :=
  ∀ s t : State, step s = .next t →
    (s.config.ipDestPolicy = .fault ∨
      s.opcodeAtIp ∉ [Opcode.movLiteralToReg, .movMemToReg, .movRegToReg]) →
    t.ip = s.ip + BitVec.ofNat 16 s.opcodeAtIp.length

/-- R72: an instruction makes at most one execute-phase write, after every fetch: one register write, or the one
`store16` of `MOV_REG_TO_MEM`, or none for `NO_OP` and unknown opcodes. -/
def Obligations.OneExecutePhaseWrite : Prop :=
  (∀ s t : State, step s = .next t → ∃ i : Instr, i.opcode = s.opcodeAtIp ∧
    exec i (s.withIp (s.ip + BitVec.ofNat 16 s.opcodeAtIp.length)) = .next t) ∧
  ∀ (i : Instr) (u t : State), exec i u = .next t →
    match i with
    | .addRegToReg _ _ | .andRegToReg _ _ | .orRegToReg _ _ => ∃ v, t = u.setReg .acc v
    | .movLiteralToReg _ _ | .movMemToReg _ _ | .movRegToReg _ _ => ∃ d v, t = u.setReg d v
    | .movRegToMem _ ad => ∃ v, u.store16 (dataAddress ad) v = .ok t
    | .noOp | .unknownOpcode _ => t = u

/-- What a completed step leaves unchanged, by the instruction decoded from the bytes it consumed: always the cursor and
the parameters; memory, but for the two cells of `MOV_REG_TO_MEM` at the data address of its operand; and every register
but IP and the one that the instruction names as its destination. -/
def Obligations.CompletedStepFrame : Prop :=
  ∀ s t : State, step s = .next t →
    ∃ i : Instr, decode s.config.opc s.instrBytes = .ok (i, []) ∧ i.opcode = s.opcodeAtIp ∧ SameRest s t ∧
      match i with
      | .addRegToReg _ _ | .andRegToReg _ _ | .orRegToReg _ _ =>
        SameBytes s t ∧ ∀ r, r ≠ .ip → r ≠ .acc → t.reg r = s.reg r
      | .movLiteralToReg _ d | .movMemToReg _ d | .movRegToReg _ d =>
        SameBytes s t ∧ ∃ id, operandId s.config d = some id ∧
          ∀ r, r ≠ .ip → r ≠ regOf s.config id → t.reg r = s.reg r
      | .movRegToMem _ ad => SameBytesBut16 (dataAddress ad) s t ∧ SameRegsBut .ip s t
      | .noOp | .unknownOpcode _ => SameBytes s t ∧ SameRegsBut .ip s t

/-- A fault is precise (R104): the only effect a faulting step leaves is the advance of IP over the fetches that
succeeded, at most the four bytes of the longest instruction. -/
def Obligations.FaultLeavesOnlyTheIpAdvance : Prop :=
  ∀ (s : State) (f : Fault), step s = .fault f → ∃ n : Nat, n ≤ 4 ∧ f.after = s.withIp (s.ip + BitVec.ofNat 16 n)

/-- A step ends in `Ok` or in a fault (R75): no step is refused. -/
def Obligations.StepEndsInOkOrFault : Prop :=
  ∀ s : State, (∃ t, step s = .next t) ∨ ∃ f, step s = .fault f

/-- R98: the two fault kinds with their codes. `BadRegister` arises only under one of the two `Fault` policies; under
`IP_DEST_POLICY = Write` a program whose register operands are all in 0 to 7 can raise only `OutOfBounds`. -/
def Obligations.FaultKindsAndWhereTheyArise : Prop :=
  FaultKind.outOfBounds.code = 1 ∧ FaultKind.badRegister.code = 2 ∧
  (∀ (s : State) (f : Fault), step s = .fault f → f.kind = .badRegister →
    s.config.regIdPolicy = .fault ∨ s.config.ipDestPolicy = .fault) ∧
  ∀ (i : Instr) (s : State) (f : Fault), s.config.ipDestPolicy = .write →
    (∀ r ∈ regOperands i, r.toNat ≤ 7) → exec i s = .fault f → f.kind = .outOfBounds

/-! The whole machine. -/

/-- The invariant: memory stays in its canonical form within `0..MAX_OFFSET` and the parameters stay well formed,
whether a step completes or faults. -/
def Obligations.EveryStepKeepsTheInvariant : Prop :=
  ∀ s : State, s.wf → (∀ t, step s = .next t → t.wf) ∧ ∀ f, step s = .fault f → f.after.wf

/-- Every list of host requests keeps the invariant and every parameter: `MAX_OFFSET` never changes (R115). -/
def Obligations.RequestsKeepTheInvariantAndTheParameters : Prop :=
  ∀ (rs : List Request) (s : State),
    (serveAll rs s).config = s.config ∧ (s.wf → (serveAll rs s).wf)

/-- A fault is the sticky outcome of a run (R82): a longer run ends in the same fault. After a fault of the opcode
fetch the CORE is in the same state, so a further STEP repeats the fault. -/
def Obligations.FaultIsTheStickyOutcomeOfARun : Prop :=
  (∀ (n k : Nat) (s : State) (f : Fault),
    Sys2Proof.core.run n s = .fault f → Sys2Proof.core.run (n + k) s = .fault f) ∧
  ∀ (s t : State) (kd : FaultKind) (a : Nat) (w : Width),
    stepPort s = (.fault kd a w .opcodeFetch, t) → t = s ∧ stepPort t = (.fault kd a w .opcodeFetch, t)

/-- R32: no instruction reads or writes the write cursor, so a program cannot observe it; it is 0 at reset, and the two
pushes are the loader requests that change it. -/
def Obligations.ProgramCannotObserveTheCursor : Prop :=
  (∀ (s : State) (c : Nat),
    stepPort (s.withCursor c) = ((stepPort s).1, (stepPort s).2.withCursor c) ∧
    (stepPort s).2.cursor = s.cursor) ∧
  (∀ (c : Config) (mem0 : Memory), (State.construct c mem0).cursor = 0) ∧
  ∀ (r : Request) (s : State), (serve r s).2.cursor ≠ s.cursor →
    (∃ b, r = .pushByte b ∧ (serve r s).2.cursor = s.cursor + 1) ∨
    ∃ w, r = .push16 w ∧ (serve r s).2.cursor = s.cursor + 2

/-- Cells above 0x10000 are out of a program's reach (R33): two machines that agree on everything but those cells answer
a STEP alike and still agree, and the step leaves those cells as they were. -/
def Obligations.CellsAboveTheReachAreInvisible : Prop :=
  ∀ s t : State, s.wf → t.wf → s.regs = t.regs → SameRest s t →
    (∀ a, a ≤ 0x10000 → s.mem.read a = t.mem.read a) →
    (stepPort s).1 = (stepPort t).1 ∧ (stepPort s).2.regs = (stepPort t).2.regs ∧
    SameRest (stepPort s).2 (stepPort t).2 ∧
    (∀ a, a ≤ 0x10000 → (stepPort s).2.mem.read a = (stepPort t).2.mem.read a) ∧
    ∀ a, 0x10000 < a → (stepPort s).2.mem.read a = s.mem.read a

/-- R79 and R12: a snapshot shows the eight registers and the bytes from `IP - WB` to `IP + WA`, an address outside
`0..MAX_OFFSET` as absent; it never faults and changes no state; and the window affects nothing but the snapshot. -/
def Obligations.SnapshotShowsTheWindowAndChangesNothing : Prop :=
  (∀ s : State, ∃ v : Snapshot, serve .snapshot s = (.snapshot v, s) ∧
    (∀ id : RegId, v.regs[id] = s.rfRead id) ∧
    v.window.length = s.config.windowBefore + s.config.windowAfter + 1 ∧
    ∀ (k : Nat) (h : k < v.window.length),
      (v.window[k]).1 = (s.ip.toNat : Int) - s.config.windowBefore + k ∧
      ((0 ≤ (v.window[k]).1 ∧ (v.window[k]).1 ≤ s.config.maxOffset) →
        (v.window[k]).2 = some (s.mem.read (v.window[k]).1.toNat)) ∧
      (((v.window[k]).1 < 0 ∨ s.config.maxOffset < (v.window[k]).1) → (v.window[k]).2 = none)) ∧
  ∀ (r : Request) (s : State) (wb wa : Nat), r ≠ .snapshot →
    serve r (s.withWindow wb wa) = ((serve r s).1, (serve r s).2.withWindow wb wa)

/-- With every 16-bit access in range and no operand that `BadRegister` is raised for, nothing is left to fault (R101):
from `MAX_OFFSET` of at least 0x10000, `Mod8` and `Write` every step completes and keeps these conditions, so every run
of every length completes. -/
def Obligations.WithNothingToFaultEveryRunIsSafe : Prop :=
  ∀ s : State, NothingToFault s → (∃ t, step s = .next t ∧ NothingToFault t) ∧ ∀ k, SafeFor k s

/-- A store by `MOV_REG_TO_MEM` is seen by the very next fetch, with no fence, flush or delay (R53). -/
def Obligations.StoreIsSeenByTheNextFetch : Prop :=
  ∀ (s t : State) (operand : Byte) (r : Reg) (ad : Word), s.mem.wf → ReadableSource s.config operand r →
    exec (.movRegToMem operand ad) s = .next t →
    fetchByte .opcodeFetch (t.withIp ad) = .done ((s.reg r).extractLsb' 8 8) (t.withIp (ad + 1)) ∧
    fetchWord .operandFetch (t.withIp ad) = .done (s.reg r) (t.withIp (ad + 2))

/-- R100 in the listing order, where register id 0 is IP: `BadRegister` records the operand under
`REG_ID_POLICY = Fault` and 0 for a destination of id 0 under `IP_DEST_POLICY = Fault`, with width 1 and the phase
`Execute`, and leaves the state as it was after the fetches. -/
def Obligations.BadRegisterInTheListingOrder : Prop :=
  ∀ (s : State) (a b : Byte) (w : Word), s.config.regMap = Config.listingOrder →
    (s.config.regIdPolicy = .fault → 8 ≤ a.toNat →
      ∀ i ∈ [Instr.addRegToReg a b, .andRegToReg a b, .orRegToReg a b, .movRegToReg a b,
          .movLiteralToReg w a, .movMemToReg w a, .movRegToMem a w],
        ∃ f, exec i s = .fault f ∧ f.kind = .badRegister ∧ f.addr = a.toNat ∧ f.width = .byte ∧
          f.phase = .execute ∧ f.after = s) ∧
    (s.config.regIdPolicy = .fault → a.toNat ≤ 7 → 8 ≤ b.toNat →
      ∀ i ∈ [Instr.addRegToReg a b, .andRegToReg a b, .orRegToReg a b, .movRegToReg a b],
        ∃ f, exec i s = .fault f ∧ f.kind = .badRegister ∧ f.addr = b.toNat ∧ f.width = .byte ∧
          f.phase = .execute ∧ f.after = s) ∧
    (s.config.ipDestPolicy = .fault → operandId s.config b = some 0 → (∃ id, operandId s.config a = some id) →
      ∀ i ∈ [Instr.movLiteralToReg w b, .movMemToReg w b, .movRegToReg a b],
        ∃ f, exec i s = .fault f ∧ f.kind = .badRegister ∧ f.addr = 0 ∧ f.width = .byte ∧
          f.phase = .execute ∧ f.after = s)
end

