-- ==== Sys2Proof/Laws/Decode.lean ====
section
/-! SUPPORT. What a well-formed `OPC` gives, and everything the opcode decoder can answer. -/

namespace Sys2Proof

/-- The bytes of a well-formed `OPC` differ from each other, each from those before it in the table; and the byte
written `NO_OP` differs from them all. -/
theorem Opc.wf_ne {c : Opc} (h : c.wf) :
    (c.andRegToReg ≠ c.addRegToReg) ∧
    (c.orRegToReg ≠ c.addRegToReg ∧ c.orRegToReg ≠ c.andRegToReg) ∧
    (c.movLiteralToReg ≠ c.addRegToReg ∧ c.movLiteralToReg ≠ c.andRegToReg ∧ c.movLiteralToReg ≠ c.orRegToReg) ∧
    (c.movMemToReg ≠ c.addRegToReg ∧ c.movMemToReg ≠ c.andRegToReg ∧ c.movMemToReg ≠ c.orRegToReg ∧
      c.movMemToReg ≠ c.movLiteralToReg) ∧
    (c.movRegToMem ≠ c.addRegToReg ∧ c.movRegToMem ≠ c.andRegToReg ∧ c.movRegToMem ≠ c.orRegToReg ∧
      c.movRegToMem ≠ c.movLiteralToReg ∧ c.movRegToMem ≠ c.movMemToReg) ∧
    (c.movRegToReg ≠ c.addRegToReg ∧ c.movRegToReg ≠ c.andRegToReg ∧ c.movRegToReg ≠ c.orRegToReg ∧
      c.movRegToReg ≠ c.movLiteralToReg ∧ c.movRegToReg ≠ c.movMemToReg ∧ c.movRegToReg ≠ c.movRegToMem) ∧
    (c.noOp ≠ c.addRegToReg ∧ c.noOp ≠ c.andRegToReg ∧ c.noOp ≠ c.orRegToReg ∧ c.noOp ≠ c.movLiteralToReg ∧
      c.noOp ≠ c.movMemToReg ∧ c.noOp ≠ c.movRegToMem ∧ c.noOp ≠ c.movRegToReg) := by
  obtain ⟨h1, h2⟩ := h
  simp only [Opc.effectBytes, List.nodup_cons, List.mem_cons, List.not_mem_nil, not_or] at h1 h2
  constructorm* _ ∧ _ <;> (intro e; simp_all)

/-- The byte that each tag of the opcode decoder stands for. -/
theorem decodeOpcode_cases (c : Opc) (b : Byte) :
    match decodeOpcode c b with
    | .addRegToReg => b = c.addRegToReg
    | .andRegToReg => b = c.andRegToReg
    | .orRegToReg => b = c.orRegToReg
    | .movLiteralToReg => b = c.movLiteralToReg
    | .movMemToReg => b = c.movMemToReg
    | .movRegToMem => b = c.movRegToMem
    | .movRegToReg => b = c.movRegToReg
    | .noOp => b = c.noOp
    | .unknown x => x = b ∧ b ∉ c.effectBytes ∧ b ≠ c.noOp := by
  unfold decodeOpcode
  by_cases h0 : b = c.addRegToReg
  · simp only [if_pos h0]; exact h0
  by_cases h1 : b = c.andRegToReg
  · simp only [if_neg h0, if_pos h1]; exact h1
  by_cases h2 : b = c.orRegToReg
  · simp only [if_neg h0, if_neg h1, if_pos h2]; exact h2
  by_cases h3 : b = c.movLiteralToReg
  · simp only [if_neg h0, if_neg h1, if_neg h2, if_pos h3]; exact h3
  by_cases h4 : b = c.movMemToReg
  · simp only [if_neg h0, if_neg h1, if_neg h2, if_neg h3, if_pos h4]; exact h4
  by_cases h5 : b = c.movRegToMem
  · simp only [if_neg h0, if_neg h1, if_neg h2, if_neg h3, if_neg h4, if_pos h5]; exact h5
  by_cases h6 : b = c.movRegToReg
  · simp only [if_neg h0, if_neg h1, if_neg h2, if_neg h3, if_neg h4, if_neg h5, if_pos h6]; exact h6
  by_cases h7 : b = c.noOp
  · simp only [if_neg h0, if_neg h1, if_neg h2, if_neg h3, if_neg h4, if_neg h5, if_neg h6, if_pos h7]; exact h7
  · simp only [if_neg h0, if_neg h1, if_neg h2, if_neg h3, if_neg h4, if_neg h5, if_neg h6, if_neg h7]
    simp [Opc.effectBytes, h0, h1, h2, h3, h4, h5, h6, h7]

end Sys2Proof
end

