-- ==== Sys2Proof/Laws/Memory.lean ====
section
/-! SUPPORT. What the memory operations do: a read after a write, and the canonical form that every write keeps. -/

namespace Sys2Proof.Machine

/-- An address below every listed one reads as an unlisted cell. -/
theorem Memory.read_below (m : Memory) (a : Nat) (h : ∀ c ∈ m, a < c.1) : m.read a = Memory.unlisted := by
  induction m with
  | nil => rfl
  | cons c m ih =>
    have hc : a < c.1 := h c (by simp)
    have hm : ∀ c' ∈ m, a < c'.1 := fun c' hc' => h c' (by simp [hc'])
    simp [Memory.read, ih hm, Nat.ne_of_lt hc]

/-- Every cell of a written memory is an old one or the one written. -/
theorem Memory.mem_write {m : Memory} {a : Nat} {v : Byte} {c : Host.Cell} (h : c ∈ m.write a v) :
    c ∈ m ∨ (c = (a, v) ∧ v ≠ Memory.unlisted) := by
  induction m with
  | nil =>
    simp only [Memory.write] at h
    split at h
    · cases h
    · right; exact ⟨by simpa using h, ‹_›⟩
  | cons d m ih =>
    obtain ⟨b, w⟩ := d
    simp only [Memory.write] at h
    split at h
    · split at h
      · exact .inl h
      · rcases List.mem_cons.mp h with h | h
        · exact .inr ⟨h, ‹_›⟩
        · exact .inl h
    · split at h
      · split at h
        · exact .inl (List.mem_cons_of_mem _ h)
        · rcases List.mem_cons.mp h with h | h
          · exact .inr ⟨h, ‹_›⟩
          · exact .inl (List.mem_cons_of_mem _ h)
      · rcases List.mem_cons.mp h with h | h
        · exact .inl (by simp [h])
        · rcases ih h with h | h
          · exact .inl (List.mem_cons_of_mem _ h)
          · exact .inr h

/-- A write keeps the canonical form. -/
theorem Memory.write_wf {m : Memory} (h : m.wf) (a : Nat) (v : Byte) : (m.write a v).wf := by
  refine ⟨?_, fun c hc => ?_⟩
  · have hp := h.1
    clear h
    induction m with
    | nil => simp only [Memory.write]; split <;> simp
    | cons d m ih =>
      obtain ⟨b, w⟩ := d
      obtain ⟨hb, hm⟩ := List.pairwise_cons.mp hp
      simp only [Memory.write]
      split
      · split
        · exact hp
        · refine List.pairwise_cons.mpr ⟨fun c hc => ?_, hp⟩
          rcases List.mem_cons.mp hc with rfl | hc
          · assumption
          · exact Nat.lt_trans ‹a < b› (hb c hc)
      · split
        · split
          · exact hm
          · subst b; exact List.pairwise_cons.mpr ⟨hb, hm⟩
        · refine List.pairwise_cons.mpr ⟨fun c hc => ?_, ih hm⟩
          rcases Memory.mem_write hc with hc | ⟨rfl, -⟩
          · exact hb c hc
          · simp only; omega
  · rcases Memory.mem_write hc with hc | ⟨rfl, hv⟩
    · exact h.2 c hc
    · exact hv

/-- A write to a cell that exists lists only cells that exist. -/
theorem Memory.write_within {m : Memory} {n a : Nat} (h : m.within n) (ha : a ≤ n) (v : Byte) :
    (m.write a v).within n := by
  intro c hc
  rcases Memory.mem_write hc with hc | ⟨rfl, -⟩
  · exact h c hc
  · exact ha

/-- A read after a write: the value at the written address, and every other address as before. -/
theorem Memory.read_write_ne (m : Memory) {a x : Nat} (hx : x ≠ a) (v : Byte) :
    (m.write a v).read x = m.read x := by
  induction m with
  | nil => simp only [Memory.write]; split <;> simp [Memory.read, hx]
  | cons c m ih =>
    simp only [Memory.write]
    split
    · split <;> simp [Memory.read, hx]
    · split
      · split <;> simp_all [Memory.read]
      · simp only [Memory.read, ih]

theorem Memory.read_write {m : Memory} (h : m.wf) (a b : Nat) (v : Byte) :
    (m.write a v).read b = if b = a then v else m.read b := by
  have hp := h.1
  clear h
  induction m with
  | nil =>
    by_cases hv : v = Memory.unlisted <;> by_cases hb : b = a <;> simp [Memory.write, Memory.read, hv, hb]
  | cons d m ih =>
    obtain ⟨c, w⟩ := d
    obtain ⟨hc, hm⟩ := List.pairwise_cons.mp hp
    have below : ∀ a, a ≤ c → Memory.read m a = Memory.unlisted := fun a ha =>
      Memory.read_below m a fun e he => Nat.lt_of_le_of_lt ha (hc e he)
    simp only [Memory.write]
    split
    · split
      · by_cases hb : b = a
        · subst hb; simp [Memory.read, Nat.ne_of_lt ‹b < c›, below b (Nat.le_of_lt ‹b < c›), ‹v = _›]
        · simp [hb]
      · by_cases hb : b = a <;> simp [Memory.read, hb]
    · split
      · subst c
        split
        · by_cases hb : b = a
          · subst hb; simp [below b (Nat.le_refl b), *]
          · simp [Memory.read, hb]
        · by_cases hb : b = a <;> simp [Memory.read, hb]
      · by_cases hb : b = c
        · subst hb; simp [Memory.read, Ne.symm ‹¬a = b›]
        · simp [Memory.read, hb, ih hm]

end Sys2Proof.Machine
end

