-- ==== Sys2Proof/Laws/State.lean ====
section
/-! SUPPORT. One lemma per field per update of the state, and the reads of a written register. -/

namespace Sys2Proof.Machine

@[simp] theorem State.setReg_mem (s : State) (r : Reg) (v : Word) : (s.setReg r v).mem = s.mem := rfl
@[simp] theorem State.setReg_cursor (s : State) (r : Reg) (v : Word) : (s.setReg r v).cursor = s.cursor := rfl
@[simp] theorem State.setReg_config (s : State) (r : Reg) (v : Word) : (s.setReg r v).config = s.config := rfl
@[simp] theorem State.setReg_regs (s : State) (r : Reg) (v : Word) : (s.setReg r v).regs = s.regs.write r v := rfl

@[simp] theorem State.withIp_mem (s : State) (v : Word) : (s.withIp v).mem = s.mem := rfl
@[simp] theorem State.withIp_cursor (s : State) (v : Word) : (s.withIp v).cursor = s.cursor := rfl
@[simp] theorem State.withIp_config (s : State) (v : Word) : (s.withIp v).config = s.config := rfl
@[simp] theorem State.withIp_ip (s : State) (v : Word) : (s.withIp v).ip = v := rfl
@[simp] theorem State.withIp_withIp (s : State) (v w : Word) : (s.withIp v).withIp w = s.withIp w := rfl
@[simp] theorem State.withIp_self (s : State) : s.withIp s.ip = s := rfl

@[simp] theorem State.withMem_mem (s : State) (m : Memory) : (s.withMem m).mem = m := rfl
@[simp] theorem State.withMem_regs (s : State) (m : Memory) : (s.withMem m).regs = s.regs := rfl
@[simp] theorem State.withMem_cursor (s : State) (m : Memory) : (s.withMem m).cursor = s.cursor := rfl
@[simp] theorem State.withMem_config (s : State) (m : Memory) : (s.withMem m).config = s.config := rfl
@[simp] theorem State.withMem_ip (s : State) (m : Memory) : (s.withMem m).ip = s.ip := rfl
@[simp] theorem State.withMem_reg (s : State) (m : Memory) (r : Reg) : (s.withMem m).reg r = s.reg r := rfl

@[simp] theorem State.withCursor_mem (s : State) (c : Nat) : (s.withCursor c).mem = s.mem := rfl
@[simp] theorem State.withCursor_regs (s : State) (c : Nat) : (s.withCursor c).regs = s.regs := rfl
@[simp] theorem State.withCursor_cursor (s : State) (c : Nat) : (s.withCursor c).cursor = c := rfl
@[simp] theorem State.withCursor_config (s : State) (c : Nat) : (s.withCursor c).config = s.config := rfl
@[simp] theorem State.withCursor_ip (s : State) (c : Nat) : (s.withCursor c).ip = s.ip := rfl
@[simp] theorem State.withCursor_reg (s : State) (c : Nat) (r : Reg) : (s.withCursor c).reg r = s.reg r := rfl

@[simp] theorem State.advanceIp_mem (s : State) (w : Width) : (s.advanceIp w).mem = s.mem := rfl
@[simp] theorem State.advanceIp_cursor (s : State) (w : Width) : (s.advanceIp w).cursor = s.cursor := rfl
@[simp] theorem State.advanceIp_config (s : State) (w : Width) : (s.advanceIp w).config = s.config := rfl
@[simp] theorem State.advanceIp_ip (s : State) (w : Width) :
    (s.advanceIp w).ip = s.ip + BitVec.ofNat 16 w.bytes := rfl

/-- A written register reads as written, and every other register as before. -/
theorem RegFile.read_write (f : RegFile) (d r : Reg) (v : Word) :
    (f.write d v).read r = if r = d then v else f.read r := by
  cases d <;> cases r <;> rfl

@[simp] theorem State.reg_setReg_same (s : State) (d : Reg) (v : Word) : (s.setReg d v).reg d = v := by
  simp [State.reg, RegFile.read_write]

theorem State.reg_setReg_ne (s : State) {d r : Reg} (v : Word) (h : r ≠ d) :
    (s.setReg d v).reg r = s.reg r := by
  simp [State.reg, RegFile.read_write, h]

/-- IP is the register named `ip`. -/
theorem State.ip_eq_reg (s : State) : s.ip = s.reg .ip := rfl

/-- Replacing IP is writing the register named `ip`. -/
theorem State.withIp_eq_setReg (s : State) (v : Word) : s.withIp v = s.setReg .ip v := rfl

theorem State.reg_withIp_ne (s : State) {r : Reg} (v : Word) (h : r ≠ .ip) : (s.withIp v).reg r = s.reg r := by
  rw [State.withIp_eq_setReg, State.reg_setReg_ne _ _ h]

end Sys2Proof.Machine
end

