-- ==== Sys2Proof/Laws/Ops.lean ====
section
/-! SUPPORT. For each shared operation, once, everything it can answer. -/

namespace Sys2Proof.Machine

@[simp] theorem inRange_byte (n a : Nat) : inRange n a .byte = true ↔ a ≤ n := by
  simp [inRange, Width.bytes]

@[simp] theorem inRange_word (n a : Nat) : inRange n a .word = true ↔ a + 1 ≤ n := by
  simp [inRange, Width.bytes]

theorem State.loadByte_cases (s : State) (a : Nat) :
    (a ≤ s.config.maxOffset ∧ s.loadByte a = .ok (s.mem.read a)) ∨
    (s.config.maxOffset < a ∧ s.loadByte a = .error ⟨a, .byte⟩) := by
  by_cases h : a ≤ s.config.maxOffset
  · exact .inl ⟨h, by simp [State.loadByte, h]⟩
  · exact .inr ⟨Nat.lt_of_not_le h, by simp [State.loadByte, h]⟩

theorem State.load16_cases (s : State) (a : Nat) :
    (a + 1 ≤ s.config.maxOffset ∧ s.load16 a = .ok (wordOfBytes (s.mem.read a) (s.mem.read (a + 1)))) ∨
    (s.config.maxOffset < a + 1 ∧ s.load16 a = .error ⟨a, .word⟩) := by
  by_cases h : a + 1 ≤ s.config.maxOffset
  · exact .inl ⟨h, by simp [State.load16, h]⟩
  · exact .inr ⟨Nat.lt_of_not_le h, by simp [State.load16, h]⟩

theorem State.storeByte_cases (s : State) (a : Nat) (b : Byte) :
    (a ≤ s.config.maxOffset ∧ s.storeByte a b = .ok (s.withMem (s.mem.write a b))) ∨
    (s.config.maxOffset < a ∧ s.storeByte a b = .error ⟨a, .byte⟩) := by
  by_cases h : a ≤ s.config.maxOffset
  · exact .inl ⟨h, by simp [State.storeByte, h]⟩
  · exact .inr ⟨Nat.lt_of_not_le h, by simp [State.storeByte, h]⟩

theorem State.store16_cases (s : State) (a : Nat) (w : Word) :
    (a + 1 ≤ s.config.maxOffset ∧
      s.store16 a w = .ok (s.withMem ((s.mem.write a (hiByte w)).write (a + 1) (loByte w)))) ∨
    (s.config.maxOffset < a + 1 ∧ s.store16 a w = .error ⟨a, .word⟩) := by
  by_cases h : a + 1 ≤ s.config.maxOffset
  · exact .inl ⟨h, by simp [State.store16, h]⟩
  · exact .inr ⟨Nat.lt_of_not_le h, by simp [State.store16, h]⟩

/-- Everything `pushByte` can answer. -/
theorem State.pushByte_cases (s : State) (b : Byte) :
    (s.cursor ≤ s.config.maxOffset ∧
      s.pushByte b = .ok ((s.withMem (s.mem.write s.cursor b)).withCursor (s.cursor + 1))) ∨
    (s.config.maxOffset < s.cursor ∧ s.pushByte b = .error ⟨s.cursor, .byte⟩) := by
  rcases s.storeByte_cases s.cursor b with ⟨h, e⟩ | ⟨h, e⟩
  · exact .inl ⟨h, by simp [State.pushByte, e]⟩
  · exact .inr ⟨h, by simp [State.pushByte, e]⟩

/-- Everything `push16` can answer. -/
theorem State.push16_cases (s : State) (w : Word) :
    (s.cursor + 1 ≤ s.config.maxOffset ∧
      s.push16 w = .ok ((s.withMem ((s.mem.write s.cursor (hiByte w)).write (s.cursor + 1) (loByte w))).withCursor
        (s.cursor + 2))) ∨
    (s.config.maxOffset < s.cursor + 1 ∧ s.push16 w = .error ⟨s.cursor, .word⟩) := by
  rcases s.store16_cases s.cursor w with ⟨h, e⟩ | ⟨h, e⟩
  · exact .inl ⟨h, by simp [State.push16, e]⟩
  · exact .inr ⟨h, by simp [State.push16, e]⟩

/-- Reset's memory is in the canonical form. -/
theorem State.reset_mem_wf : State.reset.mem.wf := by decide

/-- Every store that answers a state keeps the canonical form and lists only cells that exist. -/
theorem State.storeByte_keeps_wf {s t : State} {a : Nat} {b : Byte} (h : s.storeByte a b = .ok t)
    (hw : s.mem.wf) (hc : s.mem.within s.config.maxOffset) :
    t.mem.wf ∧ t.mem.within s.config.maxOffset ∧ t.config = s.config := by
  rcases s.storeByte_cases a b with ⟨hr, e⟩ | ⟨_, e⟩ <;> rw [e] at h <;> cases h
  exact ⟨Memory.write_wf hw a b, Memory.write_within hc hr b, rfl⟩

theorem State.store16_keeps_wf {s t : State} {a : Nat} {w : Word} (h : s.store16 a w = .ok t)
    (hw : s.mem.wf) (hc : s.mem.within s.config.maxOffset) :
    t.mem.wf ∧ t.mem.within s.config.maxOffset ∧ t.config = s.config := by
  rcases s.store16_cases a w with ⟨hr, e⟩ | ⟨_, e⟩ <;> rw [e] at h <;> cases h
  exact ⟨Memory.write_wf (Memory.write_wf hw _ _) _ _,
    Memory.write_within (Memory.write_within hc (by omega) _) hr _, rfl⟩

theorem State.pushByte_keeps_wf {s t : State} {b : Byte} (h : s.pushByte b = .ok t)
    (hw : s.mem.wf) (hc : s.mem.within s.config.maxOffset) :
    t.mem.wf ∧ t.mem.within s.config.maxOffset ∧ t.config = s.config := by
  rcases s.pushByte_cases b with ⟨hr, e⟩ | ⟨_, e⟩ <;> rw [e] at h <;> cases h
  exact ⟨Memory.write_wf hw _ _, Memory.write_within hc hr _, rfl⟩

theorem State.push16_keeps_wf {s t : State} {w : Word} (h : s.push16 w = .ok t)
    (hw : s.mem.wf) (hc : s.mem.within s.config.maxOffset) :
    t.mem.wf ∧ t.mem.within s.config.maxOffset ∧ t.config = s.config := by
  rcases s.push16_cases w with ⟨hr, e⟩ | ⟨_, e⟩ <;> rw [e] at h <;> cases h
  exact ⟨Memory.write_wf (Memory.write_wf hw _ _) _ _,
    Memory.write_within (Memory.write_within hc (by omega) _) hr _, rfl⟩

/-- A word as a number: its high byte times 256 plus its low byte. -/
theorem toNat_wordOfBytes (hi lo : Byte) : (wordOfBytes hi lo).toNat = 256 * hi.toNat + lo.toNat := by
  have h1 := hi.isLt
  have h2 := lo.isLt
  simp only [wordOfBytes, BitVec.toNat_ofNat]
  omega

theorem toNat_hiByte (w : Word) : (hiByte w).toNat = w.toNat / 256 := by
  have := w.isLt
  simp only [hiByte, BitVec.extractLsb'_toNat, Nat.shiftRight_eq_div_pow]
  omega

theorem toNat_loByte (w : Word) : (loByte w).toNat = w.toNat % 256 := by
  simp [loByte, BitVec.extractLsb'_toNat]

/-- The two bytes of a word are the word. -/
@[simp] theorem wordOfBytes_hi_lo (w : Word) : wordOfBytes (hiByte w) (loByte w) = w := by
  apply BitVec.eq_of_toNat_eq
  rw [toNat_wordOfBytes, toNat_hiByte, toNat_loByte]
  omega

@[simp] theorem hiByte_wordOfBytes (hi lo : Byte) : hiByte (wordOfBytes hi lo) = hi := by
  apply BitVec.eq_of_toNat_eq
  have := lo.isLt
  rw [toNat_hiByte, toNat_wordOfBytes]
  omega

@[simp] theorem loByte_wordOfBytes (hi lo : Byte) : loByte (wordOfBytes hi lo) = lo := by
  apply BitVec.eq_of_toNat_eq
  have := lo.isLt
  rw [toNat_loByte, toNat_wordOfBytes]
  omega

/-- Truncating the exact sum is addition of bit vectors. -/
theorem addResult_eq_add (a b : Word) : addResult a b = a + b := by
  apply BitVec.eq_of_toNat_eq
  simp [addResult]

/-- Everything a fetch of a byte can answer. -/
theorem fetchByte_cases (phase : Phase) (s : State) :
    (s.ip.toNat ≤ s.config.maxOffset ∧
      fetchByte phase s = .done (s.mem.read s.ip.toNat) (s.advanceIp .byte)) ∨
    (s.config.maxOffset < s.ip.toNat ∧
      fetchByte phase s = .stop (.outOfBounds s.ip.toNat .byte phase s)) := by
  rcases s.loadByte_cases s.ip.toNat with ⟨h, e⟩ | ⟨h, e⟩
  · exact .inl ⟨h, by simp [fetchByte, e]⟩
  · exact .inr ⟨h, by simp [fetchByte, e, raiseOutOfBounds]⟩

/-- Everything a fetch of a word can answer. -/
theorem fetchWord_cases (phase : Phase) (s : State) :
    (s.ip.toNat + 1 ≤ s.config.maxOffset ∧
      fetchWord phase s =
        .done (wordOfBytes (s.mem.read s.ip.toNat) (s.mem.read (s.ip.toNat + 1))) (s.advanceIp .word)) ∨
    (s.config.maxOffset < s.ip.toNat + 1 ∧
      fetchWord phase s = .stop (.outOfBounds s.ip.toNat .word phase s)) := by
  rcases s.load16_cases s.ip.toNat with ⟨h, e⟩ | ⟨h, e⟩
  · exact .inl ⟨h, by simp [fetchWord, e]⟩
  · exact .inr ⟨h, by simp [fetchWord, e, raiseOutOfBounds]⟩

/-- A source check goes on with the register that the operand's id names, or raises `BadRegister`. -/
theorem withSource_cases (s : State) (r : Byte) (k : Reg → Result) :
    (∃ id, operandId s.config r = some id ∧ withSource s r k = k (regOf s.config id)) ∨
    (operandId s.config r = none ∧ withSource s r k = .fault (.badRegister r.toNat s)) := by
  cases h : operandId s.config r with
  | none => exact .inr ⟨rfl, by simp [withSource, checkSource, h, raiseBadRegister]⟩
  | some id => exact .inl ⟨id, rfl, by simp [withSource, checkSource, h]⟩

/-- A destination check goes on with the register that the operand's id names, or raises `BadRegister`. -/
theorem withDest_cases (s : State) (r : Byte) (k : Reg → Result) :
    (∃ id, operandId s.config r = some id ∧ ¬(regOf s.config id = .ip ∧ s.config.ipDestPolicy = .fault) ∧
      withDest s r k = k (regOf s.config id)) ∨
    (∃ id, operandId s.config r = some id ∧ (regOf s.config id = .ip ∧ s.config.ipDestPolicy = .fault) ∧
      withDest s r k = .fault (.badRegister id.val s)) ∨
    (operandId s.config r = none ∧ withDest s r k = .fault (.badRegister r.toNat s)) := by
  cases h : operandId s.config r with
  | none => exact .inr (.inr ⟨rfl, by simp [withDest, checkDest, h, raiseBadRegister]⟩)
  | some id =>
    by_cases hip : regOf s.config id = .ip ∧ s.config.ipDestPolicy = .fault
    · exact .inr (.inl ⟨id, rfl, hip, by simp [withDest, checkDest, h, hip, raiseBadRegister]⟩)
    · refine .inl ⟨id, rfl, hip, ?_⟩
      simp only [withDest, checkDest, h, if_neg hip]

/-- A data load goes on with the word at the address, or raises `OutOfBounds`. -/
theorem withLoad16_cases (s : State) (ad : Word) (k : Word → Result) :
    (ad.toNat + 1 ≤ s.config.maxOffset ∧
      withLoad16 s ad k = k (wordOfBytes (s.mem.read ad.toNat) (s.mem.read (ad.toNat + 1)))) ∨
    (s.config.maxOffset < ad.toNat + 1 ∧
      withLoad16 s ad k = .fault (.outOfBounds ad.toNat .word .dataLoad s)) := by
  rcases s.load16_cases ad.toNat with ⟨h, e⟩ | ⟨h, e⟩
  · exact .inl ⟨h, by simp [withLoad16, dataAddress, e]⟩
  · exact .inr ⟨h, by simp [withLoad16, dataAddress, e, raiseOutOfBounds]⟩

/-- A data store ends with both cells written, or raises `OutOfBounds`. -/
theorem finishStore16_cases (s : State) (ad v : Word) :
    (ad.toNat + 1 ≤ s.config.maxOffset ∧
      finishStore16 s ad v =
        .next (s.withMem ((s.mem.write ad.toNat (hiByte v)).write (ad.toNat + 1) (loByte v)))) ∨
    (s.config.maxOffset < ad.toNat + 1 ∧
      finishStore16 s ad v = .fault (.outOfBounds ad.toNat .word .dataStore s)) := by
  rcases s.store16_cases ad.toNat v with ⟨h, e⟩ | ⟨h, e⟩
  · exact .inl ⟨h, by simp [finishStore16, dataAddress, e]⟩
  · exact .inr ⟨h, by simp [finishStore16, dataAddress, e, raiseOutOfBounds]⟩

end Sys2Proof.Machine
end

