-- ==== Sys2Proof/Laws/Exec.lean ====
section
/-! SUPPORT. The checks under their hypotheses, and everything a meaning can answer, once. -/

namespace Sys2Proof.Machine

/-- A source operand that names a register is read. -/
theorem withSource_of_readable {s : State} {operand : Byte} {r : Reg} (h : ReadableSource s.config operand r)
    (k : Reg → Result) : withSource s operand k = k r := by
  obtain ⟨id, hid, rfl⟩ := h
  simp [withSource, checkSource, hid]

/-- A writable destination operand is written. -/
theorem withDest_of_writable {s : State} {operand : Byte} {d : Reg} (h : WritableDest s.config operand d)
    (k : Reg → Result) : withDest s operand k = k d := by
  obtain ⟨id, hid, rfl, hip⟩ := h
  have hc : ¬(regOf s.config id = .ip ∧ s.config.ipDestPolicy = .fault) := by
    rintro ⟨h1, h2⟩
    simp [hip h1] at h2
  simp only [withDest, checkDest, hid, if_neg hc]

/-- An operand byte names no register only under `REG_ID_POLICY = Fault` and only from 8 on. -/
theorem operandId_eq_none {c : Config} {r : Byte} (h : operandId c r = none) :
    c.regIdPolicy = .fault ∧ 8 ≤ r.toNat := by
  unfold operandId at h
  split at h
  · cases h
  · split at h
    · exact ⟨‹_›, by omega⟩
    · cases h

/-- What the next state of an instruction is, instruction by instruction. -/
theorem exec_next_cases {i : Instr} {u t : State} (h : exec i u = .next t) :
    match i with
    | .addRegToReg _ _ | .andRegToReg _ _ | .orRegToReg _ _ => ∃ v, t = u.setReg .acc v
    | .movLiteralToReg _ o | .movMemToReg _ o | .movRegToReg _ o =>
      ∃ id v, operandId u.config o = some id ∧
        ¬(regOf u.config id = .ip ∧ u.config.ipDestPolicy = .fault) ∧ t = u.setReg (regOf u.config id) v
    | .movRegToMem _ ad =>
      ∃ v, ad.toNat + 1 ≤ u.config.maxOffset ∧
        t = u.withMem ((u.mem.write ad.toNat (hiByte v)).write (ad.toNat + 1) (loByte v))
    | .noOp | .unknownOpcode _ => t = u := by
  cases i with
  | addRegToReg a b | andRegToReg a b | orRegToReg a b =>
    simp only [exec, execAddRegToReg, execAndRegToReg, execOrRegToReg, aluToAcc] at h
    rcases withSource_cases u a _ with ⟨_, _, e⟩ | ⟨_, e⟩ <;> rw [e] at h
    · rcases withSource_cases u b _ with ⟨_, _, e⟩ | ⟨_, e⟩ <;> rw [e] at h <;> cases h
      exact ⟨_, rfl⟩
    · cases h
  | movLiteralToReg w d =>
    simp only [exec, execMovLiteralToReg] at h
    rcases withDest_cases u d _ with ⟨id, h1, h2, e⟩ | ⟨_, _, _, e⟩ | ⟨_, e⟩ <;> rw [e] at h <;> cases h
    exact ⟨id, _, h1, h2, rfl⟩
  | movMemToReg ad d =>
    simp only [exec, execMovMemToReg] at h
    rcases withDest_cases u d _ with ⟨id, h1, h2, e⟩ | ⟨_, _, _, e⟩ | ⟨_, e⟩ <;> rw [e] at h
    · rcases withLoad16_cases u ad _ with ⟨h3, e⟩ | ⟨h3, e⟩ <;> rw [e] at h <;> cases h
      exact ⟨id, _, h1, h2, rfl⟩
    · cases h
    · cases h
  | movRegToReg a d =>
    simp only [exec, execMovRegToReg] at h
    rcases withSource_cases u a _ with ⟨_, _, e⟩ | ⟨_, e⟩ <;> rw [e] at h
    · rcases withDest_cases u d _ with ⟨id, h1, h2, e⟩ | ⟨_, _, _, e⟩ | ⟨_, e⟩ <;> rw [e] at h <;> cases h
      exact ⟨id, _, h1, h2, rfl⟩
    · cases h
  | movRegToMem a ad =>
    simp only [exec, execMovRegToMem] at h
    rcases withSource_cases u a _ with ⟨_, _, e⟩ | ⟨_, e⟩ <;> rw [e] at h
    · rcases finishStore16_cases u ad _ with ⟨h3, e⟩ | ⟨h3, e⟩ <;> rw [e] at h <;> cases h
      exact ⟨_, h3, rfl⟩
    · cases h
  | noOp => cases h; rfl
  | unknownOpcode _ => cases h; rfl

/-- A fault of an instruction leaves the state it executed on; it is a `BadRegister` of one of its operands or of a
destination of IP, or an `OutOfBounds` of its data access. -/
theorem exec_fault_cases {i : Instr} {u : State} {f : Fault} (h : exec i u = .fault f) :
    (∃ a, f = .badRegister a u ∧
      ((∃ r ∈ regOperands i, operandId u.config r = none) ∨ u.config.ipDestPolicy = .fault)) ∨
    ∃ ad : Word, u.config.maxOffset < ad.toNat + 1 ∧
      (f = .outOfBounds ad.toNat .word .dataLoad u ∨ f = .outOfBounds ad.toNat .word .dataStore u) := by
  cases i with
  | addRegToReg a b | andRegToReg a b | orRegToReg a b =>
    simp only [exec, execAddRegToReg, execAndRegToReg, execOrRegToReg, aluToAcc] at h
    rcases withSource_cases u a _ with ⟨_, _, e⟩ | ⟨h1, e⟩ <;> rw [e] at h
    · rcases withSource_cases u b _ with ⟨_, _, e⟩ | ⟨h1, e⟩ <;> rw [e] at h <;> cases h
      exact .inl ⟨_, rfl, .inl ⟨b, by simp [regOperands], h1⟩⟩
    · cases h; exact .inl ⟨_, rfl, .inl ⟨a, by simp [regOperands], h1⟩⟩
  | movLiteralToReg w d =>
    simp only [exec, execMovLiteralToReg] at h
    rcases withDest_cases u d _ with ⟨_, _, _, e⟩ | ⟨_, _, h2, e⟩ | ⟨h1, e⟩ <;> rw [e] at h <;> cases h
    · exact .inl ⟨_, rfl, .inr h2.2⟩
    · exact .inl ⟨_, rfl, .inl ⟨d, by simp [regOperands], h1⟩⟩
  | movMemToReg ad d =>
    simp only [exec, execMovMemToReg] at h
    rcases withDest_cases u d _ with ⟨_, _, _, e⟩ | ⟨_, _, h2, e⟩ | ⟨h1, e⟩ <;> rw [e] at h
    · rcases withLoad16_cases u ad _ with ⟨h3, e⟩ | ⟨h3, e⟩ <;> rw [e] at h <;> cases h
      exact .inr ⟨ad, h3, .inl rfl⟩
    · cases h; exact .inl ⟨_, rfl, .inr h2.2⟩
    · cases h; exact .inl ⟨_, rfl, .inl ⟨d, by simp [regOperands], h1⟩⟩
  | movRegToReg a d =>
    simp only [exec, execMovRegToReg] at h
    rcases withSource_cases u a _ with ⟨_, _, e⟩ | ⟨h1, e⟩ <;> rw [e] at h
    · rcases withDest_cases u d _ with ⟨_, _, _, e⟩ | ⟨_, _, h2, e⟩ | ⟨h1, e⟩ <;> rw [e] at h <;> cases h
      · exact .inl ⟨_, rfl, .inr h2.2⟩
      · exact .inl ⟨_, rfl, .inl ⟨d, by simp [regOperands], h1⟩⟩
    · cases h; exact .inl ⟨_, rfl, .inl ⟨a, by simp [regOperands], h1⟩⟩
  | movRegToMem a ad =>
    simp only [exec, execMovRegToMem] at h
    rcases withSource_cases u a _ with ⟨_, _, e⟩ | ⟨h1, e⟩ <;> rw [e] at h
    · rcases finishStore16_cases u ad _ with ⟨h3, e⟩ | ⟨h3, e⟩ <;> rw [e] at h <;> cases h
      exact .inr ⟨ad, h3, .inr rfl⟩
    · cases h; exact .inl ⟨_, rfl, .inl ⟨a, by simp [regOperands], h1⟩⟩
  | noOp => cases h
  | unknownOpcode _ => cases h

end Sys2Proof.Machine
end

