-- ==== Sys2Proof/Laws/PerInstr.lean ====
section
/-! SUPPORT. A statement made once for each constructor: an encoding has the length that the opcode's schema gives,
and that length is 1, 3 or 4 (spec/30_encoding.md R58). -/

namespace Sys2Proof.Laws

/-- The encoding of an instruction has the length its opcode's schema gives. -/
def EncodingLength.Statement (i : Instr) : Prop :=
  ∀ c : Opc, (encode c i).length = i.opcode.length ∧ (i.opcode.length = 1 ∨ i.opcode.length = 3 ∨ i.opcode.length = 4)

theorem EncodingLength.addRegToReg (reg1 reg2 : Byte) :
    EncodingLength.Statement (.addRegToReg reg1 reg2) := fun _ => ⟨rfl, Or.inr (Or.inl rfl)⟩

theorem EncodingLength.andRegToReg (reg1 reg2 : Byte) :
    EncodingLength.Statement (.andRegToReg reg1 reg2) := fun _ => ⟨rfl, Or.inr (Or.inl rfl)⟩

theorem EncodingLength.orRegToReg (reg1 reg2 : Byte) :
    EncodingLength.Statement (.orRegToReg reg1 reg2) := fun _ => ⟨rfl, Or.inr (Or.inl rfl)⟩

theorem EncodingLength.movLiteralToReg (literal : Word) (destReg : Byte) :
    EncodingLength.Statement (.movLiteralToReg literal destReg) := fun _ => ⟨rfl, Or.inr (Or.inr rfl)⟩

theorem EncodingLength.movMemToReg (address : Word) (destReg : Byte) :
    EncodingLength.Statement (.movMemToReg address destReg) := fun _ => ⟨rfl, Or.inr (Or.inr rfl)⟩

theorem EncodingLength.movRegToMem (srcReg : Byte) (address : Word) :
    EncodingLength.Statement (.movRegToMem srcReg address) := fun _ => ⟨rfl, Or.inr (Or.inr rfl)⟩

theorem EncodingLength.movRegToReg (srcReg destReg : Byte) :
    EncodingLength.Statement (.movRegToReg srcReg destReg) := fun _ => ⟨rfl, Or.inr (Or.inl rfl)⟩

theorem EncodingLength.noOp : EncodingLength.Statement .noOp := fun _ => ⟨rfl, Or.inl rfl⟩

theorem EncodingLength.unknownOpcode (op : Byte) :
    EncodingLength.Statement (.unknownOpcode op) := fun _ => ⟨rfl, Or.inl rfl⟩

end Sys2Proof.Laws
end

