-- ==== Sys2Proof/Laws/Step.lean ====
section
/-! SUPPORT. A step as its opcode fetch and what follows it, the fetches at a named IP, and a run as its first step. -/

namespace Sys2Proof.Machine

/-- What a step does once its operands are fetched. -/
def afterFetch : Fetched Instr → Result
  | .done i t => exec i t
  | .stop f => .fault f

/-- A step whose opcode byte is in range goes on with the operands of that opcode. -/
theorem step_of_opcode_in_range {s : State} (h : s.ip.toNat ≤ s.config.maxOffset) :
    step s = afterFetch (fetchOperands s.opcodeAtIp (s.withIp (s.ip + 1))) := by
  rcases fetchByte_cases .opcodeFetch s with ⟨_, e⟩ | ⟨h', _⟩
  · simp only [step, fetchInstr, e, Fetched.andThen, State.opcodeAtIp]
    rfl
  · omega

/-- An operand byte fetched with IP at `p`. -/
theorem fetchByte_withIp (s : State) (p : Word) :
    fetchByte .operandFetch (s.withIp p) =
      if s.config.maxOffset < p.toNat then .stop (.outOfBounds p.toNat .byte .operandFetch (s.withIp p))
      else .done (s.mem.read p.toNat) (s.withIp (p + 1)) := by
  rcases fetchByte_cases .operandFetch (s.withIp p) with ⟨h, e⟩ | ⟨h, e⟩ <;>
    simp only [State.withIp_ip, State.withIp_config] at h
  · rw [e, if_neg (by omega)]; rfl
  · rw [e, if_pos h]; rfl

/-- An operand word fetched with IP at `p`. -/
theorem fetchWord_withIp (s : State) (p : Word) :
    fetchWord .operandFetch (s.withIp p) =
      if s.config.maxOffset < p.toNat + 1 then .stop (.outOfBounds p.toNat .word .operandFetch (s.withIp p))
      else .done (wordOfBytes (s.mem.read p.toNat) (s.mem.read (p.toNat + 1))) (s.withIp (p + 2)) := by
  rcases fetchWord_cases .operandFetch (s.withIp p) with ⟨h, e⟩ | ⟨h, e⟩ <;>
    simp only [State.withIp_ip, State.withIp_config] at h
  · rw [e, if_neg (by omega)]; rfl
  · rw [e, if_pos h]; rfl

/-- A run of `n + 1` steps is its first step and a run of `n`. -/
theorem core_run_succ (n : Nat) (s : State) :
    Sys2Proof.core.run (n + 1) s =
      match step s with
      | .next t => Sys2Proof.core.run n t
      | .fault f => .fault f
      | .refused r => .refused r := by
  simp only [Host.Core.run]
  rw [show Sys2Proof.core.step s = step s from rfl]
  cases step s <;> rfl

end Sys2Proof.Machine
end

