-- ==== Sys2Proof/Tests/Slice0.lean ====
section
/-! SUPPORT. Tests from spec/95_test_vectors.md and the rules it cites, the WellFormed smoke tests, and for each
statement with hypotheses a witness that meets them. Bytes are under the reference assignment (log entry 1). -/

namespace Sys2Proof.Tests

open Sys2Proof.Machine

/-! Well-formedness: each check refuses an ill-formed term. -/

theorem test_wf_refuses_unknown_effect_byte : Instr.wf Opc.reference (.unknownOpcode 0x10) = false := by decide

theorem test_wf_refuses_unknown_noop_byte : Instr.wf Opc.reference (.unknownOpcode 0x00) = false := by decide

theorem test_wf_refuses_repeated_opcode : ¬Opc.wf { Opc.reference with andRegToReg := 0x10 } := by decide

theorem test_wf_refuses_noop_in_opc : ¬Opc.wf { Opc.reference with noOp := 0x16 } := by decide

theorem test_wf_refuses_repeated_register :
    ¬Config.wf { Config.reference with regMap := #v[.ip, .acc, .r1, .r2, .r3, .r4, .r5, .ip] } := by decide

theorem test_wf_accepts_reference : Config.reference.wf ∧ Instr.wf Opc.reference (.unknownOpcode 0xFF) = true := by
  decide

theorem test_memory_wf_refuses_unsorted : ¬Memory.wf [(2, 1), (1, 1)] := by decide

theorem test_memory_wf_refuses_unlisted_value : ¬Memory.wf [(1, 0)] := by decide

/-! Decoding: words written out from R59 and R62, byte by byte. -/

theorem test_decode_add : decodeTableWord 24 0b00010000_00000010_00000011 = some (.addRegToReg 2 3) := by decide

theorem test_decode_and : decodeTableWord 24 0b00010001_00000010_00000010 = some (.andRegToReg 2 2) := by decide

theorem test_decode_or : decodeTableWord 24 0b00010010_00000100_00000101 = some (.orRegToReg 4 5) := by decide

theorem test_decode_mov_literal :
    decodeTableWord 32 0b00010011_00000000_10101011_00000010 = some (.movLiteralToReg 0x00AB 2) := by decide

theorem test_decode_mov_mem :
    decodeTableWord 32 0b00010100_00010000_00100011_00000101 = some (.movMemToReg 0x1023 5) := by decide

theorem test_decode_mov_to_mem :
    decodeTableWord 32 0b00010101_00000010_00000001_00000000 = some (.movRegToMem 2 0x0100) := by decide

theorem test_decode_mov_reg : decodeTableWord 24 0b00010110_00000010_00000111 = some (.movRegToReg 2 7) := by decide

theorem test_decode_noop : decodeTableWord 8 0b00000000 = some .noOp := by decide

theorem test_decode_unknown : decodeTableWord 8 0b11111111 = some (.unknownOpcode 0xFF) := by decide

theorem test_decode_truncated : decode Opc.reference [0x13, 0x00] = .error (.truncated .movLiteralToReg) := rfl

/-- An opcode-table word runs as the first instruction after reset (R89: R1 gets the literal). -/
theorem test_fetch_word_runs_after_reset :
    step (State.reset.withFetchWord 32 0x1300AB02) =
      .next { (State.reset.withFetchWord 32 0x1300AB02) with
        regs := { State.reset.regs with ip := 4, r1 := 0x00AB } } := rfl

/-! Steps. -/

/-- A state with the reference parameters but `MAX_OFFSET`, IP at `ip`, and the bytes `bs` placed from `ip` on. -/
def machine (maxOffset : Nat) (ip : Word) (bs : List Byte) : State :=
  let s := (State.construct { Config.reference with maxOffset := maxOffset } []).withIp ip
  s.placeBytes ((List.range bs.length).map fun k => (ip + BitVec.ofNat 16 k).toNat) bs

/-- The state a step completes in. -/
def nextOf : Result → Option State
  | .next t => some t
  | .fault _ => none
  | .refused _ => none

/-- The fault a step ends in: code, address, width, phase, and IP after it. -/
def faultOf : Result → Option (Nat × Nat × Nat × Phase × Word)
  | .fault f => some (f.kind.code, f.addr, f.width.bytes, f.phase, f.after.ip)
  | .next _ => none
  | .refused _ => none

/-- A register after a step. -/
def regAfter (r : Reg) (s : State) : Option Word := (nextOf (step s)).map fun t => t.reg r

/-- A byte of memory after a step. -/
def byteAfter (a : Nat) (s : State) : Option Byte := (nextOf (step s)).map fun t => t.mem.read a

/-- W1. -/
theorem test_add_truncates :
    regAfter .acc (((machine 0xFF 0 [0x10, 2, 3]).setReg .r1 0xFFFF).setReg .r2 1) = some 0 := by decide

/-- Section 2.5, ADD IP IP at 0x20: IP is read past the instruction. -/
theorem test_add_reads_ip_after_fetch :
    regAfter .acc (machine 0xFF 0x20 [0x10, 0, 0]) = some 0x0046 := by decide

/-- R85's example. -/
theorem test_and :
    regAfter .acc (((machine 0xFF 0 [0x11, 2, 3]).setReg .r1 0xF0F0).setReg .r2 0x0FF0) = some 0x00F0 := by decide

/-- Section 2.5, OR ACC R1: a source is the destination. -/
theorem test_or_source_is_destination :
    regAfter .acc (((machine 0xFF 0 [0x12, 1, 2]).setReg .acc 0x00FF).setReg .r1 0xFF00) = some 0xFFFF := by decide

/-- Section 2.3: the literal ends at 0xFFFF and `dest_reg` is fetched at 0 after the wrap. -/
theorem test_mov_literal_wraps :
    regAfter .r1 (machine 0xFFFF 0xFFFD [0x13, 0x12, 0x34, 2]) = some 0x1234 ∧
    regAfter .ip (machine 0xFFFF 0xFFFD [0x13, 0x12, 0x34, 2]) = some 0x0001 := by decide

/-- Section 2.3: an operand fetch fails and the opcode's advance is kept. -/
theorem test_mov_literal_operand_fault :
    faultOf (step (machine 0xFF 0xFE [0x13, 0x00])) = some (1, 0xFF, 2, .operandFetch, 0xFF) := by decide

/-- Section 2.6: the word at 0xFE, high byte first. -/
theorem test_mov_mem :
    regAfter .r1 ((machine 0xFF 0 [0x14, 0x00, 0xFE, 2]).withMem
      [(0, 0x14), (2, 0xFE), (3, 2), (0xFE, 0x12), (0xFF, 0x34)]) = some 0x1234 := by decide

/-- Section 2.6: the check precedes the load. -/
theorem test_mov_mem_check_precedes_load :
    faultOf (step (machine 0xFF 0 [0x14, 0x01, 0x00, 9])) = some (2, 9, 1, .execute, 4) := by decide

/-- R91's example. -/
theorem test_mov_to_mem :
    byteAfter 0x100 ((machine 0x1FF 0 [0x15, 2, 0x01, 0x00]).setReg .r1 0xBEEF) = some 0xBE ∧
    byteAfter 0x101 ((machine 0x1FF 0 [0x15, 2, 0x01, 0x00]).setReg .r1 0xBEEF) = some 0xEF := by decide

/-- Section 2.6: a store at `MAX_OFFSET` faults. -/
theorem test_mov_to_mem_at_the_bound :
    faultOf (step (machine 0xFF 0 [0x15, 2, 0x00, 0xFF])) = some (1, 0xFF, 2, .dataStore, 4) := by decide

/-- Section 2.6: a computed jump. -/
theorem test_mov_reg_jumps :
    regAfter .ip ((machine 0xFF 0 [0x16, 1, 0]).setReg .acc 0x0012) = some 0x0012 := by decide

/-- Section 2.6 under `IP_DEST_POLICY = Fault`, on the register form. -/
theorem test_mov_reg_to_ip_faults :
    let s := machine 0xFF 0 [0x16, 1, 0]
    faultOf (step { s with config := { s.config with ipDestPolicy := .fault } }) = some (2, 0, 1, .execute, 3) := by
  decide

/-- Section 2.7. -/
theorem test_noop_at_the_top : regAfter .ip (machine 0xFFFF 0xFFFF [0x00]) = some 0 := by decide

/-- Section 2.7. -/
theorem test_unknown : regAfter .ip (machine 0xFF 0x05 [0xFF]) = some 6 := by decide

/-- Section 2.5 under `REG_ID_POLICY = Mod8`: operand 0x0A names R1. -/
theorem test_mod8 :
    let s := (machine 0xFF 0 [0x10, 0x0A, 0x0A]).setReg .r1 7
    regAfter .acc { s with config := { s.config with regIdPolicy := .mod8 } } = some 14 := by decide

/-! The ports. -/

/-- Section 2.2: three pushes into a memory of four cells; the third is refused and changes nothing. -/
theorem test_pushes :
    let s := serveAll [.push16 0xABCD, .pushByte 0x11] (machine 3 0 [])
    s.mem = [(0, 0xAB), (1, 0xCD), (2, 0x11)] ∧ s.cursor = 3 ∧
    serve (.push16 0x2233) s = (.outOfBounds 3 .word, s) := by decide

/-- R79: the window around IP = 1 with one byte each side and `MAX_OFFSET = 1`. -/
theorem test_snapshot_window :
    (((machine 1 0 [0x10, 0x02]).withIp 1).withWindow 2 1).snapshot.window =
      [(-1, none), (0, some 0x10), (1, some 0x02), (2, none)] := by decide

/-- P5: a fault ends the run, and the state it leaves accepts a further STEP. -/
theorem test_step_port_after_fault :
    let s := machine 5 4 [0x13, 0x00]
    stepPort s = (.fault .outOfBounds 5 .word .operandFetch, s.withIp 5) ∧
    (serve .step (s.withIp 5)) = (.ok, s.withIp 6) := by decide

/-- The driver issues STEP until `STOP` holds (R81): here until IP is 7, and for a count of two steps (D13). -/
theorem test_drive :
    drive (fun _ s => decide (s.ip = 7)) 9 (machine 0xFF 5 []) = .stopped ((machine 0xFF 5 []).withIp 7) ∧
    drive (fun n _ => decide (n = 2)) 9 (machine 0xFF 5 []) = .stopped ((machine 0xFF 5 []).withIp 7) := by decide

/-- How tokens are written (R66). -/
theorem test_token_text : (Token.byte 0xAB).text = "0xAB" ∧ (Token.word 0x1023).text = "0x1023" := ⟨rfl, rfl⟩

/-- The listing form of R66. -/
theorem test_listing :
    listing Config.reference (.movLiteralToReg 0x00AB 2) =
      some [.mnemonic .movLiteralToReg, .byte 0x00, .byte 0xAB, .reg .r1] ∧
    parseListing Config.reference [.mnemonic .movLiteralToReg, .word 0x00AB, .reg .r1] =
      some (.movLiteralToReg 0x00AB 2) := by decide

/-! Witnesses: concrete states and operands that meet all hypotheses of a statement together, a boundary value for each
clause. -/

/-- `MAX_OFFSET = 0xFF`, IP = 0x10, the cursor at 0xFF, one listed cell. -/
def bounded : State := ((machine 0xFF 0x10 [0x10, 0x02, 0x07]).withCursor 0xFF)

theorem witness_DecodeOfEncodeGivesTheInstruction :
    Opc.reference.wf ∧ Instr.wf Opc.reference (.unknownOpcode 0x17) = true ∧
    Instr.wf Opc.reference (.movRegToMem 0xFF 0xFFFF) = true := by decide

theorem witness_DecodedBytesAreTheEncoding :
    decode Opc.reference [0x16, 0x02, 0x07, 0xAA] = .ok (.movRegToReg 0x02 0x07, [0xAA]) := rfl

theorem witness_BytesOutsideOpcDecodeAsNoOp :
    (0x0F : Byte) ∉ Opc.reference.effectBytes ∧ (0x17 : Byte) ∉ Opc.reference.effectBytes := by decide

theorem witness_LengthDecidedByTheOpcodeByte :
    decode Opc.reference [0x00, 0x10] = .ok (.noOp, [0x10]) ∧
    decode Opc.reference [0x10, 0x02, 0x03] = .ok (.addRegToReg 0x02 0x03, []) ∧
    decode Opc.reference [0x15, 0x02, 0x01, 0x00, 0x55] = .ok (.movRegToMem 0x02 0x0100, [0x55]) := ⟨rfl, rfl, rfl⟩

theorem witness_OpcodeBytesDecodeToTheirSchemas :
    Opc.reference.wf ∧ (0x17 : Byte) ∉ Opc.reference.effectBytes := by decide

theorem witness_ListingReadsBack :
    Config.reference.wf ∧ (listing Config.reference (.movRegToMem 0x07 0xFFFF)).isSome = true ∧
    listing Config.reference (.movRegToMem 0x08 0xFFFF) = none := by decide

theorem witness_AccessesSucceedExactlyInRange :
    0xFF ≤ bounded.config.maxOffset ∧ bounded.config.maxOffset < 0x100 ∧
    0xFE + 1 ≤ bounded.config.maxOffset ∧ bounded.config.maxOffset < 0xFF + 1 := by decide

theorem witness_LoadsReadTheirCells :
    0xFF ≤ bounded.config.maxOffset ∧ bounded.config.maxOffset < 0x100 ∧ 0xFE + 1 ≤ bounded.config.maxOffset ∧ bounded.config.maxOffset < 0xFF + 1 := by decide

theorem witness_StoresWriteTheirCellsOnly :
    bounded.mem.wf ∧ 0xFF ≤ bounded.config.maxOffset ∧ bounded.config.maxOffset < 0x100 ∧
    0xFE + 1 ≤ bounded.config.maxOffset ∧ bounded.config.maxOffset < 0xFF + 1 := by decide

theorem witness_LoadAfterStoreReturnsTheValue :
    bounded.mem.wf ∧ 0xFE + 1 ≤ bounded.config.maxOffset ∧ 0xFF ≤ bounded.config.maxOffset := by decide

theorem witness_EverySixteenBitQuantityIsBigEndian :
    bounded.mem.wf ∧ 0xFE + 1 ≤ bounded.config.maxOffset ∧ (machine 0xFF 0xFE []).mem.wf ∧
    (machine 0xFF 0xFE []).ip.toNat + 1 ≤ (machine 0xFF 0xFE []).config.maxOffset := by decide

theorem witness_CanonicalMemoriesThatReadAlikeAreEqual :
    ∃ m m' : Memory, m.wf ∧ m'.wf ∧ ∀ a, m.read a = m'.read a :=
  ⟨Memory.write [] 3 1, [(3, 1)], by decide, by decide, fun _ => rfl⟩

theorem witness_PushesStoreAtTheCursor :
    bounded.mem.wf ∧ bounded.cursor ≤ bounded.config.maxOffset ∧ bounded.config.maxOffset < bounded.cursor + 1 ∧
    (bounded.withCursor 0x100).config.maxOffset < (bounded.withCursor 0x100).cursor ∧
    (bounded.withCursor 0xFE).cursor + 1 ≤ (bounded.withCursor 0xFE).config.maxOffset := by decide

theorem witness_RegisterWriteIsModulo : bounded.config.wf ∧ (0 : RegId) ≠ 7 := by decide

theorem witness_RegisterOperandInterpretation :
    (0x07 : Byte).toNat ≤ 7 ∧ 8 ≤ (0x08 : Byte).toNat ∧ Config.reference.regIdPolicy = .fault ∧
    Config.reference.regMap = Config.listingOrder ∧
    { Config.reference with regIdPolicy := RegIdPolicy.mod8 }.regIdPolicy = .mod8 := by decide

theorem witness_ResetStateIsWellFormed :
    Config.reference.wf ∧ Memory.wf [(0xFFFF, 1)] ∧ Memory.within Config.reference.maxOffset [(0xFFFF, 1)] := by
  decide

theorem witness_FetchAdvancesOnlyAfterARead :
    (machine 0xFF 0xFF []).ip.toNat ≤ 0xFF ∧ (machine 0xFF 0x100 []).config.maxOffset < (machine 0xFF 0x100 []).ip.toNat ∧
    (machine 0xFF 0xFE []).ip.toNat + 1 ≤ (machine 0xFF 0xFE []).config.maxOffset ∧
    (machine 0xFF 0xFF []).config.maxOffset < (machine 0xFF 0xFF []).ip.toNat + 1 := by decide

theorem witness_OpcodeFetchFaultChangesNothing :
    (machine 0xFF 0x100 []).config.maxOffset < (machine 0xFF 0x100 []).ip.toNat := by decide

theorem witness_OperandFetchFaultKeepsEarlierAdvances :
    (let s := machine 0xFF 0xFD [0x13, 0x12, 0x34]
     s.ip.toNat ≤ s.config.maxOffset ∧
     firstOutOfRange s.config.maxOffset s.opcodeAtIp.schema (s.ip + 1) = some (0x100, .byte)) ∧
    (let s := machine 0xFF 0xFC [0x13, 0x12, 0x34, 0x02]
     s.ip.toNat ≤ s.config.maxOffset ∧
     firstOutOfRange s.config.maxOffset s.opcodeAtIp.schema (s.ip + 1) = none) := by decide

theorem witness_StepRunsTheDecodedInstruction :
    (∀ a ∈ instrAddresses bounded.opcodeAtIp bounded.ip, a ≤ bounded.config.maxOffset) ∧
    decode bounded.config.opc bounded.instrBytes = .ok (.addRegToReg 0x02 0x07, []) := ⟨by decide, rfl⟩

theorem witness_StepRunsTheEncodedInstruction :
    let s := machine 0xFFFF 0xFFFD [0x13, 0x12, 0x34, 0x02]
    s.config.wf ∧ Instr.wf s.config.opc (.movLiteralToReg 0x1234 0x02) = true ∧
    (∀ a ∈ instrAddresses (Instr.movLiteralToReg 0x1234 0x02).opcode s.ip, a ≤ s.config.maxOffset) ∧
    s.bytesAt (instrAddresses (Instr.movLiteralToReg 0x1234 0x02).opcode s.ip) =
      encode s.config.opc (.movLiteralToReg 0x1234 0x02) := by decide

theorem witness_PlacedInstructionRunsNext :
    State.reset.wf ∧ Instr.wf State.reset.config.opc (.movRegToMem 0x02 0x0100) = true ∧
    ∀ a ∈ instrAddresses (Instr.movRegToMem 0x02 0x0100).opcode State.reset.ip, a ≤ State.reset.config.maxOffset := by
  decide

/-- The parameters with `REG_ID_POLICY = Mod8`. -/
def mod8Config : Config := { Config.reference with regIdPolicy := .mod8 }

/-- The parameters with `IP_DEST_POLICY = Fault`. -/
def ipFaultConfig : Config := { Config.reference with ipDestPolicy := .fault }

/-- The hypotheses of the three arithmetic and bitwise completions: an operand of 7, and 0xFF under `Mod8`. -/
theorem witness_AluCompletes :
    ReadableSource bounded.config 0x02 .r1 ∧ ReadableSource bounded.config 0x07 .r6 ∧
    ReadableSource mod8Config 0xFF .r6 :=
  ⟨⟨2, by decide, by decide⟩, ⟨7, by decide, by decide⟩, ⟨7, by decide, by decide⟩⟩

theorem witness_MovLiteralCompletes :
    WritableDest bounded.config 0x00 .ip ∧ WritableDest bounded.config 0x07 .r6 ∧ WritableDest ipFaultConfig 0x01 .acc :=
  ⟨⟨0, by decide, by decide, by decide⟩, ⟨7, by decide, by decide, by decide⟩, ⟨1, by decide, by decide, by decide⟩⟩

theorem witness_MovMemCompletes :
    WritableDest bounded.config 0x07 .r6 ∧ (0x00FE : Word).toNat + 1 ≤ bounded.config.maxOffset :=
  ⟨⟨7, by decide, by decide, by decide⟩, by decide⟩

theorem witness_MovToMemCompletes :
    bounded.mem.wf ∧ ReadableSource bounded.config 0x00 .ip ∧ dataAddress 0x00FE + 1 ≤ bounded.config.maxOffset :=
  ⟨by decide, ⟨0, by decide, by decide⟩, by decide⟩

theorem witness_MovRegCompletes :
    ReadableSource bounded.config 0x00 .ip ∧ WritableDest bounded.config 0x00 .ip :=
  ⟨⟨0, by decide, by decide⟩, ⟨0, by decide, by decide, by decide⟩⟩

/-- For each of the seven step rules, a state whose opcode byte is that of the rule. -/
theorem witness_StepsFollowTheirRules :
    ∀ p ∈ [((0x10 : Byte), Opcode.addRegToReg), (0x11, .andRegToReg), (0x12, .orRegToReg), (0x13, .movLiteralToReg),
        (0x14, .movMemToReg), (0x15, .movRegToMem), (0x16, .movRegToReg)],
      (machine 0xFF 0xFF [p.1]).config.wf ∧ (machine 0xFF 0xFF [p.1]).opcodeAtIp = p.2 ∧
      (machine 0xFF 0xFF [p.1]).mem.read (machine 0xFF 0xFF [p.1]).ip.toNat = p.1 := by decide

theorem witness_NoOpStepFollowsItsRule :
    (machine 0xFF 0xFF [0x17]).mem.read (machine 0xFF 0xFF [0x17]).ip.toNat ∉
      (machine 0xFF 0xFF [0x17]).config.opc.effectBytes := by decide

theorem witness_BadRegisterIsRaisedByTheChecks :
    bounded.config.regIdPolicy = .fault ∧ 8 ≤ (0x08 : Byte).toNat ∧ (0x07 : Byte).toNat ≤ 7 ∧
    ipFaultConfig.ipDestPolicy = .fault ∧ operandId ipFaultConfig 0x00 = some 0 ∧ regOf ipFaultConfig 0 = .ip ∧
    ReadableSource ipFaultConfig 0x07 .r6 :=
  ⟨by decide, by decide, by decide, by decide, by decide, by decide, ⟨7, by decide, by decide⟩⟩

theorem witness_BadRegisterInTheListingOrder :
    ipFaultConfig.regMap = Config.listingOrder ∧ ipFaultConfig.regIdPolicy = .fault ∧
    ipFaultConfig.ipDestPolicy = .fault ∧ 8 ≤ (0x08 : Byte).toNat ∧ (0x07 : Byte).toNat ≤ 7 ∧
    operandId ipFaultConfig 0x00 = some 0 ∧ (∃ id, operandId ipFaultConfig 0x07 = some id) :=
  ⟨by decide, by decide, by decide, by decide, by decide, by decide, ⟨7, by decide⟩⟩

theorem witness_IpChangesOnlyAsANamedDestination :
    (∃ t, exec (.movLiteralToReg 0x40 0x00) bounded = .next t ∧ t.ip ≠ bounded.ip) ∧
    operandId bounded.config 0x00 = some 0 ∧ regOf bounded.config 0 = .ip ∧ bounded.config.ipDestPolicy = .write ∧
    (0x00FE : Word).toNat + 1 ≤ bounded.config.maxOffset ∧ ReadableSource bounded.config 0x07 .r6 ∧
    operandId ipFaultConfig 0x00 = some 0 ∧ regOf ipFaultConfig 0 = .ip ∧ ipFaultConfig.ipDestPolicy = .fault :=
  ⟨⟨_, rfl, by decide⟩, by decide, by decide, by decide, by decide, ⟨7, by decide, by decide⟩, by decide, by decide,
    by decide⟩

/-- A completed step of a register opcode, of `MOV_REG_TO_MEM`, and of a move under `IP_DEST_POLICY = Fault`. -/
theorem witness_CompletedSteps :
    (∃ t, step bounded = .next t ∧ bounded.opcodeAtIp = .addRegToReg) ∧
    (∃ t, step (machine 0xFF 0 [0x15, 2, 0x00, 0xFE]) = .next t ∧
      (machine 0xFF 0 [0x15, 2, 0x00, 0xFE]).opcodeAtIp = .movRegToMem) ∧
    (let s := { machine 0xFF 0 [0x13, 0x00, 0x40, 0x07] with config := { ipFaultConfig with maxOffset := 0xFF } }
     ∃ t, step s = .next t ∧ s.config.ipDestPolicy = .fault) :=
  ⟨⟨_, rfl, by decide⟩, ⟨_, rfl, by decide⟩, ⟨_, rfl, by decide⟩⟩

/-- A fault of each kind, the second under `REG_ID_POLICY = Fault`. -/
theorem witness_FaultingSteps :
    (∃ f, step (machine 0xFF 0xFE [0x13, 0x00]) = .fault f ∧ f.kind = .outOfBounds) ∧
    (∃ f, step (machine 0xFF 0 [0x10, 0x08, 0x02]) = .fault f ∧ f.kind = .badRegister) :=
  ⟨⟨_, rfl, rfl⟩, ⟨_, rfl, rfl⟩⟩

theorem witness_FaultKindsAndWhereTheyArise :
    bounded.config.ipDestPolicy = .write ∧ (∀ r ∈ regOperands (.movMemToReg 0x00FF 0x07), r.toNat ≤ 7) ∧
    ∃ f, exec (.movMemToReg 0x00FF 0x07) bounded = .fault f :=
  ⟨by decide, by decide, ⟨_, rfl⟩⟩

theorem witness_EveryStepKeepsTheInvariant :
    bounded.wf ∧ (∃ t, step bounded = .next t) ∧
    (machine 0xFF 0xFE [0x13, 0x00]).wf ∧ ∃ f, step (machine 0xFF 0xFE [0x13, 0x00]) = .fault f :=
  ⟨by decide, ⟨_, rfl⟩, by decide, ⟨_, rfl⟩⟩

theorem witness_FaultIsTheStickyOutcomeOfARun :
    (∃ f, Sys2Proof.core.run 1 (machine 0xFF 0x100 []) = .fault f) ∧
    ∃ t, stepPort (machine 0xFF 0x100 []) = (.fault .outOfBounds 0x100 .byte .opcodeFetch, t) :=
  ⟨⟨_, rfl⟩, ⟨_, rfl⟩⟩

theorem witness_ProgramCannotObserveTheCursor :
    (serve (.pushByte 0x55) bounded).2.cursor ≠ bounded.cursor ∧
    (serve (.push16 0x5566) (bounded.withCursor 0xFE)).2.cursor ≠ (bounded.withCursor 0xFE).cursor := by decide

theorem witness_CellsAboveTheReachAreInvisible :
    let s := machine 0x10001 0 []
    let t := (machine 0x10001 0 []).withMem [(0x10001, 0x55)]
    s.wf ∧ t.wf ∧ s.regs = t.regs ∧ SameRest s t ∧ s ≠ t ∧ ∀ a, a ≤ 0x10000 → s.mem.read a = t.mem.read a := by
  refine ⟨by decide, by decide, by decide, ⟨rfl, rfl⟩, by decide, fun a h => ?_⟩
  have : a ≠ 0x10001 := by omega
  simp [machine, State.placeBytes, State.construct, State.withIp, State.withMem, Memory.read, this]

theorem witness_SnapshotShowsTheWindowAndChangesNothing :
    Request.step ≠ .snapshot ∧ 0 < (bounded.snapshot.window).length ∧
    (0 : Int) ≤ (bounded.config.maxOffset : Int) ∧ ((machine 0 0 []).snapshot.window[0]?) = some (-8, none) := by decide

theorem witness_WithNothingToFaultEveryRunIsSafe :
    NothingToFault (State.construct { mod8Config with maxOffset := 0x10000 } []) := by decide

theorem witness_StoreIsSeenByTheNextFetch :
    bounded.mem.wf ∧ ReadableSource bounded.config 0x07 .r6 ∧
    ∃ t, exec (.movRegToMem 0x07 0x00FE) bounded = .next t :=
  ⟨by decide, ⟨7, by decide, by decide⟩, ⟨_, rfl⟩⟩

end Sys2Proof.Tests
end

section
/-! O15: every initial contents `MEM0` (spec/00_scope.md R11) as a memory of the model, written cell by cell. -/

namespace Sys2Proof.Machine

/-- The memory that holds `mem0` in the cells below `count` and lists nothing else: each cell stored in turn, so that
what one store does says everything about it. -/
def Memory.ofContents (mem0 : Nat → Byte) : Nat → Memory
  | 0 => []
  | count + 1 => (Memory.ofContents mem0 count).write count (mem0 count)

theorem Memory.ofContents_wf (mem0 : Nat → Byte) (count : Nat) : (Memory.ofContents mem0 count).wf := by
  induction count with
  | zero => exact ⟨.nil, by simp [Memory.ofContents]⟩
  | succ count ih => exact Memory.write_wf ih count (mem0 count)

theorem Memory.ofContents_within (mem0 : Nat → Byte) {n count : Nat} (h : count ≤ n + 1) :
    (Memory.ofContents mem0 count).within n := by
  induction count with
  | zero => simp [Memory.within, Memory.ofContents]
  | succ count ih => exact Memory.write_within (ih (by omega)) (by omega) (mem0 count)

/-- The last store settles its own cell and leaves the earlier ones, which the induction covers. -/
theorem Memory.read_ofContents (mem0 : Nat → Byte) {count a : Nat} (h : a < count) :
    (Memory.ofContents mem0 count).read a = mem0 a := by
  induction count with
  | zero => omega
  | succ count ih =>
    rw [Memory.ofContents, Memory.read_write (Memory.ofContents_wf mem0 count)]
    split
    next hlast => rw [hlast]
    next hearlier => exact ih (by omega)

/-- Settles O15: the memory is `mem0` stored into the `n + 1` cells that exist. -/
theorem everyInitialContentsIsAMemory : Obligations.EveryInitialContentsIsAMemory := fun n mem0 =>
  ⟨Memory.ofContents mem0 (n + 1), Memory.ofContents_wf mem0 (n + 1), Memory.ofContents_within mem0 (Nat.le_refl _),
    fun _ ha => Memory.read_ofContents mem0 (Nat.lt_succ_of_le ha)⟩

end Sys2Proof.Machine
end

section
/-! O52: what a fetch can change is IP, and what an execute phase can change is a register or two cells in range; so
every step keeps the invariant (spec/10_state.md R31). -/

namespace Sys2Proof.Machine

/-- The state a fetch ends in, completed or stopped, is `s` but for IP. -/
def Fetched.MovesOnlyIp {α : Type} (s : State) : Fetched α → Prop
  | .done _ t => ∃ p, t = s.withIp p
  | .stop f => ∃ p, f.after = s.withIp p

theorem Fetched.MovesOnlyIp.andThen {α β : Type} {s : State} {x : Fetched α} {k : α → State → Fetched β}
    (hx : x.MovesOnlyIp s) (hk : ∀ a p, (k a (s.withIp p)).MovesOnlyIp s) : (x.andThen k).MovesOnlyIp s := by
  cases x with
  | done a t => obtain ⟨p, rfl⟩ := hx; exact hk a p
  | stop f => exact hx

theorem fetchByte_movesOnlyIp (phase : Phase) (s : State) (p : Word) :
    (fetchByte phase (s.withIp p)).MovesOnlyIp s := by
  rcases fetchByte_cases phase (s.withIp p) with ⟨_, e⟩ | ⟨_, e⟩ <;> rw [e] <;> exact ⟨_, rfl⟩

theorem fetchWord_movesOnlyIp (phase : Phase) (s : State) (p : Word) :
    (fetchWord phase (s.withIp p)).MovesOnlyIp s := by
  rcases fetchWord_cases phase (s.withIp p) with ⟨_, e⟩ | ⟨_, e⟩ <;> rw [e] <;> exact ⟨_, rfl⟩

theorem fetchRR_movesOnlyIp (mk : Byte → Byte → Instr) (s : State) (p : Word) :
    (fetchRR mk (s.withIp p)).MovesOnlyIp s :=
  (fetchByte_movesOnlyIp _ s p).andThen fun _ q => (fetchByte_movesOnlyIp _ s q).andThen fun _ r => ⟨r, rfl⟩

theorem fetchWR_movesOnlyIp (mk : Word → Byte → Instr) (s : State) (p : Word) :
    (fetchWR mk (s.withIp p)).MovesOnlyIp s :=
  (fetchWord_movesOnlyIp _ s p).andThen fun _ q => (fetchByte_movesOnlyIp _ s q).andThen fun _ r => ⟨r, rfl⟩

theorem fetchRW_movesOnlyIp (mk : Byte → Word → Instr) (s : State) (p : Word) :
    (fetchRW mk (s.withIp p)).MovesOnlyIp s :=
  (fetchByte_movesOnlyIp _ s p).andThen fun _ q => (fetchWord_movesOnlyIp _ s q).andThen fun _ r => ⟨r, rfl⟩

theorem fetchOperands_movesOnlyIp (op : Opcode) (s : State) (p : Word) :
    (fetchOperands op (s.withIp p)).MovesOnlyIp s := by
  cases op with
  | addRegToReg | andRegToReg | orRegToReg | movRegToReg => exact fetchRR_movesOnlyIp _ s p
  | movLiteralToReg | movMemToReg => exact fetchWR_movesOnlyIp _ s p
  | movRegToMem => exact fetchRW_movesOnlyIp _ s p
  | noOp | unknown _ => exact ⟨p, rfl⟩

theorem fetchInstr_movesOnlyIp (s : State) : (fetchInstr s).MovesOnlyIp s :=
  (fetchByte_movesOnlyIp .opcodeFetch s s.ip).andThen fun _ p => fetchOperands_movesOnlyIp _ s p

/-- An execute phase that faults has written nothing (R104). -/
theorem exec_fault_after {i : Instr} {u : State} {f : Fault} (h : exec i u = .fault f) : f.after = u := by
  rcases exec_fault_cases h with ⟨_, rfl, _⟩ | ⟨_, _, rfl | rfl⟩ <;> rfl

/-- A step that completes is the execute phase of some instruction on the state with IP advanced. -/
theorem step_next_cases {s t : State} (h : step s = .next t) : ∃ i p, exec i (s.withIp p) = .next t := by
  have hip := fetchInstr_movesOnlyIp s
  rw [step] at h
  cases hf : fetchInstr s with
  | done i u =>
    rw [hf] at h hip
    obtain ⟨p, rfl⟩ := hip
    exact ⟨i, p, h⟩
  | stop f => rw [hf] at h; cases h

/-- A step that faults, in a fetch or in its execute phase, leaves the state but for IP as it was. -/
theorem step_fault_after {s : State} {f : Fault} (h : step s = .fault f) : ∃ p, f.after = s.withIp p := by
  have hip := fetchInstr_movesOnlyIp s
  rw [step] at h
  cases hf : fetchInstr s with
  | done i u =>
    rw [hf] at h hip
    obtain ⟨p, rfl⟩ := hip
    exact ⟨p, exec_fault_after h⟩
  | stop g => rw [hf] at h hip; cases h; exact hip

/-- The one memory write of an execute phase: both cells in range, so the canonical form and its bound are kept. -/
theorem State.wf_write16 {u : State} {a : Nat} (hu : u.wf) (ha : a + 1 ≤ u.config.maxOffset) (x y : Byte) :
    (u.withMem ((u.mem.write a x).write (a + 1) y)).wf := by
  obtain ⟨hmem, hwithin, hconfig⟩ := hu
  exact ⟨Memory.write_wf (Memory.write_wf hmem a x) (a + 1) y,
    Memory.write_within (Memory.write_within hwithin (by omega) x) ha y, hconfig⟩

theorem exec_next_wf {i : Instr} {u t : State} (hu : u.wf) (h : exec i u = .next t) : t.wf := by
  have hc := exec_next_cases h
  cases i with
  | addRegToReg | andRegToReg | orRegToReg => obtain ⟨_, rfl⟩ := hc; exact hu
  | movLiteralToReg | movMemToReg | movRegToReg => obtain ⟨_, _, _, _, rfl⟩ := hc; exact hu
  | movRegToMem _ ad => obtain ⟨_, hrange, rfl⟩ := hc; exact State.wf_write16 hu hrange _ _
  | noOp | unknownOpcode _ => obtain rfl : t = u := hc; exact hu

/-- Settles O52: the invariant does not mention IP, so it holds after the fetches, and the execute phase keeps it or
faults in that very state. -/
theorem everyStepKeepsTheInvariant : Obligations.EveryStepKeepsTheInvariant := by
  refine fun s hs => ⟨fun t h => ?_, fun f h => ?_⟩
  · obtain ⟨i, p, hexec⟩ := step_next_cases h
    have hfetched : (s.withIp p).wf := hs
    exact exec_next_wf hfetched hexec
  · obtain ⟨p, hafter⟩ := step_fault_after h
    rw [hafter]
    exact hs

end Sys2Proof.Machine
end

section
/-! O14: a canonical memory is determined by what it reads as (log entry 6). -/

namespace Sys2Proof.Machine

theorem Memory.wf_cons {c : Host.Cell} {m : Memory} (h : Memory.wf (c :: m)) :
    (∀ d ∈ m, c.1 < d.1) ∧ c.2 ≠ Memory.unlisted ∧ m.wf := by
  obtain ⟨hsorted, hlisted⟩ := h
  obtain ⟨hbelow, hrest⟩ := List.pairwise_cons.mp hsorted
  exact ⟨hbelow, hlisted c List.mem_cons_self, hrest, fun d hd => hlisted d (List.mem_cons_of_mem c hd)⟩

/-- What a canonical memory lists, told from its reads alone. -/
theorem Memory.mem_iff_read {m : Memory} (h : m.wf) (c : Host.Cell) :
    c ∈ m ↔ m.read c.1 = c.2 ∧ c.2 ≠ Memory.unlisted := by
  obtain ⟨a, v⟩ := c
  induction m with
  | nil => simp +contextual [Memory.read, eq_comm]
  | cons d m ih =>
    obtain ⟨b, w⟩ := d
    obtain ⟨hbelow, hw, hm⟩ := Memory.wf_cons h
    rw [List.mem_cons]
    by_cases hab : a = b
    · subst hab
      have hnot : (a, v) ∉ m := fun hc => Nat.lt_irrefl a (hbelow _ hc)
      simp only [Memory.read, if_true, hnot, or_false, Prod.mk.injEq, true_and]
      exact ⟨fun e => ⟨e.symm, e ▸ hw⟩, fun e => e.1.symm⟩
    · simp [Memory.read, hab, ih hm]

/-- Settles O14: memories that read alike list the same cells, and both list them in rising order of address. -/
theorem canonicalMemoriesThatReadAlikeAreEqual : Obligations.CanonicalMemoriesThatReadAlikeAreEqual := by
  intro m m' hm hm' hread
  have : Std.Irrefl fun x y : Host.Cell => x.1 < y.1 := ⟨fun _ => Nat.lt_irrefl _⟩
  have : Std.Asymm fun x y : Host.Cell => x.1 < y.1 := ⟨fun _ _ => Nat.lt_asymm⟩
  exact hm.1.eq_of_mem_iff hm'.1 fun c => by
    rw [Memory.mem_iff_read hm, Memory.mem_iff_read hm', hread]

end Sys2Proof.Machine
end

section
/-! O17, O19 and O45: register writes by id (R19), the registers at reset (R23), and what writes IP (R26). -/

namespace Sys2Proof.Machine

/-- `REGMAP` is injective (spec/00_scope.md R8). -/
theorem regOf_inj {c : Config} (h : c.wf) {id id' : RegId} : regOf c id = regOf c id' ↔ id = id' := by
  obtain ⟨_, hnodup⟩ := h
  refine ⟨fun e => Fin.ext ?_, fun e => by rw [e]⟩
  exact (hnodup.getElem_inj_iff (hi := by simp) (hj := by simp)).mp (by simpa [regOf] using e)

/-- Settles O17: distinct ids name distinct registers, so the rules for reading a written register apply. -/
theorem registerWriteIsModulo : Obligations.RegisterWriteIsModulo := by
  refine fun s id v hwf => ⟨?same, fun id' hne => ?other, rfl, rfl, rfl⟩
  case same => simp [State.rfWrite, State.rfRead]
  case other => exact State.reg_setReg_ne s _ (mt (regOf_inj hwf).mp hne)

theorem State.construct_reg (c : Config) (mem0 : Memory) (r : Reg) : (State.construct c mem0).reg r = 0 := by
  cases r <;> rfl

/-- Settles O19: `State.reset` is itself a construction, and IP is the register named `ip`. -/
theorem resetZeroesEveryRegister : Obligations.ResetZeroesEveryRegister := fun c mem0 =>
  ⟨State.construct_reg c mem0, State.construct_reg c mem0 .ip, State.construct_reg Config.reference []⟩

/-- Only a write to the register named `ip` changes IP. -/
theorem State.eq_ip_of_ip_setReg_ne {s : State} {r : Reg} {v : Word} (h : (s.setReg r v).ip ≠ s.ip) : r = .ip := by
  by_contra hne
  exact h (State.reg_setReg_ne s v (Ne.symm hne))

theorem IpDestPolicy.eq_write_of_ne_fault {p : IpDestPolicy} (h : p ≠ .fault) : p = .write := by
  cases p with
  | write => rfl
  | fault => exact absurd rfl h

/-- A destination that names IP under `IP_DEST_POLICY = Fault` raises `BadRegister` with its id (R73, log entry 19). -/
theorem withDest_of_faulting_ip {s : State} {operand : Byte} {id : RegId} (hid : operandId s.config operand = some id)
    (hip : regOf s.config id = .ip) (hpolicy : s.config.ipDestPolicy = .fault) (k : Reg → Result) :
    withDest s operand k = .fault (.badRegister id.val s) := by
  simp [withDest, checkDest, hid, hip, hpolicy, raiseBadRegister]

/-- A load in range goes on with the word at the address. -/
theorem withLoad16_of_in_range {s : State} {ad : Word} (h : ad.toNat + 1 ≤ s.config.maxOffset) (k : Word → Result) :
    withLoad16 s ad k = k (wordOfBytes (s.mem.read ad.toNat) (s.mem.read (ad.toNat + 1))) := by
  rcases withLoad16_cases s ad k with ⟨_, e⟩ | ⟨hout, _⟩
  · exact e
  · omega

/-- The execute phase that changes IP is that of a move whose destination names IP, under `Write`. -/
theorem exec_next_ip_ne {i : Instr} {u t : State} (h : exec i u = .next t) (hne : t.ip ≠ u.ip) :
    u.config.ipDestPolicy = .write ∧ ∃ d id, operandId u.config d = some id ∧ regOf u.config id = .ip ∧
      ((∃ w, i = .movLiteralToReg w d) ∨ (∃ ad, i = .movMemToReg ad d) ∨ ∃ r, i = .movRegToReg r d) := by
  have hc := exec_next_cases h
  cases i with
  | addRegToReg | andRegToReg | orRegToReg =>
    obtain ⟨_, rfl⟩ := hc
    cases State.eq_ip_of_ip_setReg_ne hne
  | movLiteralToReg _ d | movMemToReg _ d | movRegToReg _ d =>
    obtain ⟨id, v, hid, hallowed, rfl⟩ := hc
    have hip : regOf u.config id = .ip := State.eq_ip_of_ip_setReg_ne hne
    exact ⟨IpDestPolicy.eq_write_of_ne_fault fun hfault => hallowed ⟨hip, hfault⟩, d, id, hid, hip, by simp⟩
  | movRegToMem => obtain ⟨_, _, rfl⟩ := hc; exact absurd rfl hne
  | noOp | unknownOpcode _ => obtain rfl : t = u := hc; exact absurd rfl hne

/-- Settles O45: the inversion above, and each move run on a destination that names IP under either policy. -/
theorem ipChangesOnlyAsANamedDestination : Obligations.IpChangesOnlyAsANamedDestination := by
  refine ⟨fun _ _ _ => exec_next_ip_ne, fun u d id hid hip => ⟨fun hwrite => ?write, fun hfault => ?fault⟩⟩
  case write =>
    have hd : WritableDest u.config d .ip := ⟨id, hid, hip, fun _ => hwrite⟩
    refine ⟨fun w => withDest_of_writable hd _, fun ad hrange => ?_, fun a r hsource => ?_⟩
    · exact (withDest_of_writable hd _).trans (withLoad16_of_in_range hrange _)
    · exact (withSource_of_readable hsource _).trans (withDest_of_writable hd _)
  case fault =>
    refine ⟨fun w => withDest_of_faulting_ip hid hip hfault _, fun ad => withDest_of_faulting_ip hid hip hfault _,
      fun a r hsource => ?_⟩
    exact (withSource_of_readable hsource _).trans (withDest_of_faulting_ip hid hip hfault _)

end Sys2Proof.Machine
end

section
/-! O55: an edit of the state that nothing in a step reads commutes with the step; the write cursor is such a part of
the state (spec/10_state.md R32). -/

namespace Sys2Proof.Machine

/-- `g` edits only what a step neither reads nor writes: the state keeps what a step reads, and the two writes a step
makes commute with the edit. -/
structure Unobserved (g : State → State) : Prop where
  regs : ∀ s, (g s).regs = s.regs
  mem : ∀ s, (g s).mem = s.mem
  maxOffset : ∀ s, (g s).config.maxOffset = s.config.maxOffset
  opc : ∀ s, (g s).config.opc = s.config.opc
  regMap : ∀ s, (g s).config.regMap = s.config.regMap
  regIdPolicy : ∀ s, (g s).config.regIdPolicy = s.config.regIdPolicy
  ipDestPolicy : ∀ s, (g s).config.ipDestPolicy = s.config.ipDestPolicy
  setReg : ∀ s r v, (g s).setReg r v = g (s.setReg r v)
  withMem : ∀ s m, (g s).withMem m = g (s.withMem m)

theorem unobserved_withCursor (c : Nat) : Unobserved fun s => s.withCursor c :=
  ⟨fun _ => rfl, fun _ => rfl, fun _ => rfl, fun _ => rfl, fun _ => rfl, fun _ => rfl, fun _ => rfl,
    fun _ _ _ => rfl, fun _ _ => rfl⟩

/-- The fault with `g` applied to the state it leaves. -/
def Fault.mapAfter (g : State → State) : Fault → Fault
  | .outOfBounds a w ph s => .outOfBounds a w ph (g s)
  | .badRegister a s => .badRegister a (g s)

/-- The answer with `g` applied to the state it carries. -/
def Result.mapState (g : State → State) : Result → Result
  | .next t => .next (g t)
  | .fault f => .fault (f.mapAfter g)
  | .refused r => .refused r

/-- The end of a fetch with `g` applied to the state it carries. -/
def Fetched.mapState {α : Type} (g : State → State) : Fetched α → Fetched α
  | .done a t => .done a (g t)
  | .stop f => .stop (f.mapAfter g)

/-- Fetches that each commute with `g`, one after the other. -/
theorem Fetched.andThen_comm {α β : Type} {g : State → State} {x x' : Fetched α}
    {k k' : α → State → Fetched β} (hx : x' = x.mapState g) (hk : ∀ a t, k' a (g t) = (k a t).mapState g) :
    x'.andThen k' = (x.andThen k).mapState g := by
  subst hx
  cases x with
  | done a t => exact hk a t
  | stop f => rfl

namespace Unobserved

variable {g : State → State} (hg : Unobserved g)
include hg

/-! What a step reads, and the accesses. -/

theorem reg_eq (s : State) (r : Reg) : (g s).reg r = s.reg r := by rw [State.reg, hg.regs, State.reg]

theorem ip_eq (s : State) : (g s).ip = s.ip := hg.reg_eq s .ip

theorem regOf_eq (s : State) (id : RegId) : regOf (g s).config id = regOf s.config id := by
  simp only [regOf, hg.regMap]

theorem operandId_eq (s : State) (r : Byte) : operandId (g s).config r = operandId s.config r := by
  simp only [operandId, hg.regIdPolicy]

theorem checkSource_eq (s : State) (r : Byte) : checkSource (g s).config r = checkSource s.config r := by
  simp only [checkSource, hg.operandId_eq, hg.regOf_eq]

theorem checkDest_eq (s : State) (r : Byte) : checkDest (g s).config r = checkDest s.config r := by
  simp only [checkDest, hg.operandId_eq, hg.regOf_eq, hg.ipDestPolicy]

theorem loadByte_eq (s : State) (a : Nat) : (g s).loadByte a = s.loadByte a := by
  simp only [State.loadByte, hg.maxOffset, hg.mem]

theorem load16_eq (s : State) (a : Nat) : (g s).load16 a = s.load16 a := by
  simp only [State.load16, hg.maxOffset, hg.mem]

theorem store16_comm (s : State) (a : Nat) (w : Word) : (g s).store16 a w = (s.store16 a w).map g := by
  simp only [State.store16, hg.maxOffset, hg.mem, hg.withMem]
  split <;> rfl

theorem advanceIp_comm (s : State) (w : Width) : (g s).advanceIp w = g (s.advanceIp w) := by
  simp only [State.advanceIp, State.withIp_eq_setReg, hg.ip_eq, hg.setReg]

/-! The fetches. -/

theorem fetchByte_comm (phase : Phase) (s : State) : fetchByte phase (g s) = (fetchByte phase s).mapState g := by
  simp only [fetchByte, hg.ip_eq, hg.loadByte_eq, hg.advanceIp_comm]
  cases s.loadByte s.ip.toNat <;> rfl

theorem fetchWord_comm (phase : Phase) (s : State) : fetchWord phase (g s) = (fetchWord phase s).mapState g := by
  simp only [fetchWord, hg.ip_eq, hg.load16_eq, hg.advanceIp_comm]
  cases s.load16 s.ip.toNat <;> rfl

theorem fetchRR_comm (mk : Byte → Byte → Instr) (s : State) : fetchRR mk (g s) = (fetchRR mk s).mapState g :=
  Fetched.andThen_comm (hg.fetchByte_comm _ s) fun _ t =>
    Fetched.andThen_comm (hg.fetchByte_comm _ t) fun _ _ => rfl

theorem fetchWR_comm (mk : Word → Byte → Instr) (s : State) : fetchWR mk (g s) = (fetchWR mk s).mapState g :=
  Fetched.andThen_comm (hg.fetchWord_comm _ s) fun _ t =>
    Fetched.andThen_comm (hg.fetchByte_comm _ t) fun _ _ => rfl

theorem fetchRW_comm (mk : Byte → Word → Instr) (s : State) : fetchRW mk (g s) = (fetchRW mk s).mapState g :=
  Fetched.andThen_comm (hg.fetchByte_comm _ s) fun _ t =>
    Fetched.andThen_comm (hg.fetchWord_comm _ t) fun _ _ => rfl

theorem fetchOperands_comm (op : Opcode) (s : State) : fetchOperands op (g s) = (fetchOperands op s).mapState g := by
  cases op with
  | addRegToReg | andRegToReg | orRegToReg | movRegToReg => exact hg.fetchRR_comm _ s
  | movLiteralToReg | movMemToReg => exact hg.fetchWR_comm _ s
  | movRegToMem => exact hg.fetchRW_comm _ s
  | noOp | unknown _ => rfl

theorem fetchInstr_comm (s : State) : fetchInstr (g s) = (fetchInstr s).mapState g := by
  refine Fetched.andThen_comm (hg.fetchByte_comm _ s) fun b t => ?_
  rw [hg.opc, hg.fetchOperands_comm]

/-! The execute phase: each shared operation, on continuations that commute with the edit. -/

theorem withSource_comm {s : State} {k k' : Reg → Result} (hk : ∀ r, k' r = (k r).mapState g) (operand : Byte) :
    withSource (g s) operand k' = (withSource s operand k).mapState g := by
  simp only [withSource, hg.checkSource_eq]
  cases checkSource s.config operand with
  | ok r => exact hk r
  | error a => rfl

theorem withDest_comm {s : State} {k k' : Reg → Result} (hk : ∀ r, k' r = (k r).mapState g) (operand : Byte) :
    withDest (g s) operand k' = (withDest s operand k).mapState g := by
  simp only [withDest, hg.checkDest_eq]
  cases checkDest s.config operand with
  | ok r => exact hk r
  | error a => rfl

theorem withLoad16_comm {s : State} {k k' : Word → Result} (hk : ∀ v, k' v = (k v).mapState g) (ad : Word) :
    withLoad16 (g s) ad k' = (withLoad16 s ad k).mapState g := by
  simp only [withLoad16, hg.load16_eq]
  cases s.load16 (dataAddress ad) with
  | ok v => exact hk v
  | error f => rfl

theorem finishStore16_comm (s : State) (ad v : Word) :
    finishStore16 (g s) ad v = (finishStore16 s ad v).mapState g := by
  simp only [finishStore16, hg.store16_comm]
  cases s.store16 (dataAddress ad) v <;> rfl

theorem next_setReg_comm (s : State) (r : Reg) (v : Word) :
    (.next ((g s).setReg r v) : Result) = Result.mapState g (.next (s.setReg r v)) :=
  congrArg _ (hg.setReg s r v)

theorem aluToAcc_comm (f : Word → Word → Word) (a b : Byte) (s : State) :
    aluToAcc f a b (g s) = (aluToAcc f a b s).mapState g := by
  simp only [aluToAcc, hg.reg_eq]
  exact hg.withSource_comm (fun _ => hg.withSource_comm (fun _ => hg.next_setReg_comm s _ _) b) a

theorem exec_comm (i : Instr) (s : State) : exec i (g s) = Result.mapState g (exec i s) := by
  cases i with
  | addRegToReg a b | andRegToReg a b | orRegToReg a b => exact hg.aluToAcc_comm _ a b s
  | movLiteralToReg w d => exact hg.withDest_comm (fun _ => hg.next_setReg_comm s _ w) d
  | movMemToReg ad d =>
    exact hg.withDest_comm (fun _ => hg.withLoad16_comm (fun v => hg.next_setReg_comm s _ v) ad) d
  | movRegToMem a ad =>
    simp only [exec, execMovRegToMem, hg.reg_eq]
    exact hg.withSource_comm (fun _ => hg.finishStore16_comm s ad _) a
  | movRegToReg a d =>
    simp only [exec, execMovRegToReg, hg.reg_eq]
    exact hg.withSource_comm (fun _ => hg.withDest_comm (fun _ => hg.next_setReg_comm s _ _) d) a
  | noOp | unknownOpcode _ => rfl

theorem step_comm (s : State) : step (g s) = Result.mapState g (step s) := by
  simp only [step, hg.fetchInstr_comm]
  cases fetchInstr s with
  | done i t => exact hg.exec_comm i t
  | stop f => rfl

/-- The step port answers alike, in the state edited alike. -/
theorem stepPort_comm (s : State) : stepPort (g s) = ((stepPort s).1, g (stepPort s).2) := by
  simp only [stepPort, hg.step_comm]
  cases step s with
  | next t => rfl
  | fault f => cases f <;> rfl
  | refused r => rfl

end Unobserved

/-- A step leaves the cursor: it commutes with overwriting the cursor by itself. -/
theorem stepPort_cursor (s : State) : (stepPort s).2.cursor = s.cursor := by
  have hself : stepPort s = ((stepPort s).1, (stepPort s).2.withCursor s.cursor) :=
    (unobserved_withCursor s.cursor).stepPort_comm s
  rw [hself]
  rfl

/-- A request other than a push that succeeds leaves the cursor. -/
theorem serve_cursor_ne {r : Request} {s : State} (h : (serve r s).2.cursor ≠ s.cursor) :
    (∃ b, r = .pushByte b ∧ (serve r s).2.cursor = s.cursor + 1) ∨
    ∃ w, r = .push16 w ∧ (serve r s).2.cursor = s.cursor + 2 := by
  cases r with
  | step => exact absurd (stepPort_cursor s) h
  | loadByte a => rcases s.loadByte_cases a with ⟨_, e⟩ | ⟨_, e⟩ <;> simp [serve, e] at h
  | load16 a => rcases s.load16_cases a with ⟨_, e⟩ | ⟨_, e⟩ <;> simp [serve, e] at h
  | storeByte a b => rcases s.storeByte_cases a b with ⟨_, e⟩ | ⟨_, e⟩ <;> simp [serve, answerStore, e] at h
  | store16 a w => rcases s.store16_cases a w with ⟨_, e⟩ | ⟨_, e⟩ <;> simp [serve, answerStore, e] at h
  | pushByte b =>
    rcases s.pushByte_cases b with ⟨_, e⟩ | ⟨_, e⟩
    · exact .inl ⟨b, rfl, by simp [serve, answerStore, e]⟩
    · simp [serve, answerStore, e] at h
  | push16 w =>
    rcases s.push16_cases w with ⟨_, e⟩ | ⟨_, e⟩
    · exact .inr ⟨w, rfl, by simp [serve, answerStore, e]⟩
    · simp [serve, answerStore, e] at h
  | snapshot => exact absurd rfl h

/-- Settles O55: the cursor is unobserved by a step, 0 at construction, and moved by the two pushes alone. -/
theorem programCannotObserveTheCursor : Obligations.ProgramCannotObserveTheCursor :=
  ⟨fun s c => ⟨(unobserved_withCursor c).stepPort_comm s, stepPort_cursor s⟩, fun _ _ => rfl,
    fun _ _ => serve_cursor_ne⟩

end Sys2Proof.Machine
end

section
/-! O9 to O13, O16 and O59: the four accesses and the two pushes (spec/20_memory.md R34 to R43, R53 to R57), first each
as one equation in range and one out of range, and what the two writes of a word leave to be read. -/

namespace Sys2Proof.Machine

theorem Memory.read_write_same {m : Memory} (h : m.wf) (a : Nat) (v : Byte) : (m.write a v).read a = v := by
  rw [Memory.read_write h, if_pos rfl]

/-- The two writes of a word at `a` (R40). -/
def Memory.write16 (m : Memory) (a : Nat) (w : Word) : Memory := (m.write a (hiByte w)).write (a + 1) (loByte w)

theorem Memory.read_write16_hi {m : Memory} (h : m.wf) (a : Nat) (w : Word) : (m.write16 a w).read a = hiByte w := by
  rw [Memory.write16, Memory.read_write_ne _ (by omega), Memory.read_write_same h]

theorem Memory.read_write16_lo {m : Memory} (h : m.wf) (a : Nat) (w : Word) :
    (m.write16 a w).read (a + 1) = loByte w :=
  Memory.read_write_same (Memory.write_wf h a _) (a + 1) _

theorem Memory.read_write16_ne (m : Memory) {a x : Nat} (hhi : x ≠ a) (hlo : x ≠ a + 1) (w : Word) :
    (m.write16 a w).read x = m.read x := by
  rw [Memory.write16, Memory.read_write_ne _ hlo, Memory.read_write_ne _ hhi]

section
variable {s : State} {a : Nat}

theorem State.loadByte_of_in_range (h : a ≤ s.config.maxOffset) : s.loadByte a = .ok (s.mem.read a) := by
  simp [State.loadByte, h]

theorem State.loadByte_of_out_of_range (h : s.config.maxOffset < a) : s.loadByte a = .error ⟨a, .byte⟩ := by
  simp [State.loadByte, h]

theorem State.load16_of_in_range (h : a + 1 ≤ s.config.maxOffset) :
    s.load16 a = .ok (wordOfBytes (s.mem.read a) (s.mem.read (a + 1))) := by
  simp [State.load16, h]

theorem State.load16_of_out_of_range (h : s.config.maxOffset < a + 1) : s.load16 a = .error ⟨a, .word⟩ := by
  simp [State.load16, Nat.le_of_lt_succ h]

theorem State.storeByte_of_in_range (h : a ≤ s.config.maxOffset) (b : Byte) :
    s.storeByte a b = .ok (s.withMem (s.mem.write a b)) := by
  simp [State.storeByte, h]

theorem State.storeByte_of_out_of_range (h : s.config.maxOffset < a) (b : Byte) :
    s.storeByte a b = .error ⟨a, .byte⟩ := by
  simp [State.storeByte, h]

theorem State.store16_of_in_range (h : a + 1 ≤ s.config.maxOffset) (w : Word) :
    s.store16 a w = .ok (s.withMem (s.mem.write16 a w)) := by
  simp [State.store16, Memory.write16, h]

theorem State.store16_of_out_of_range (h : s.config.maxOffset < a + 1) (w : Word) :
    s.store16 a w = .error ⟨a, .word⟩ := by
  simp [State.store16, Nat.le_of_lt_succ h]

end

section
variable {s : State}

theorem State.pushByte_of_in_range (h : s.cursor ≤ s.config.maxOffset) (b : Byte) :
    s.pushByte b = .ok ((s.withMem (s.mem.write s.cursor b)).withCursor (s.cursor + 1)) := by
  simp only [State.pushByte, State.storeByte_of_in_range h]

theorem State.pushByte_of_out_of_range (h : s.config.maxOffset < s.cursor) (b : Byte) :
    s.pushByte b = .error ⟨s.cursor, .byte⟩ := by
  simp only [State.pushByte, State.storeByte_of_out_of_range h]

theorem State.push16_of_in_range (h : s.cursor + 1 ≤ s.config.maxOffset) (w : Word) :
    s.push16 w = .ok ((s.withMem (s.mem.write16 s.cursor w)).withCursor (s.cursor + 2)) := by
  simp only [State.push16, State.store16_of_in_range h]

theorem State.push16_of_out_of_range (h : s.config.maxOffset < s.cursor + 1) (w : Word) :
    s.push16 w = .error ⟨s.cursor, .word⟩ := by
  simp only [State.push16, State.store16_of_out_of_range h]

end

/-- Settles O9: the equations above, by their ranges. -/
theorem accessesSucceedExactlyInRange : Obligations.AccessesSucceedExactlyInRange := fun _ _ b w =>
  ⟨fun h => ⟨⟨_, State.loadByte_of_in_range h⟩, _, State.storeByte_of_in_range h b⟩,
    fun h => ⟨State.loadByte_of_out_of_range h, State.storeByte_of_out_of_range h b⟩,
    fun h => ⟨⟨_, State.load16_of_in_range h⟩, _, State.store16_of_in_range h w⟩,
    fun h => ⟨State.load16_of_out_of_range h, State.store16_of_out_of_range h w⟩⟩

/-- Settles O10: the loader port passes on what the load answers, and the bytes of the word loaded are the cells. -/
theorem loadsReadTheirCells : Obligations.LoadsReadTheirCells := by
  refine fun s a => ⟨?value, fun h => ?byteIn, fun h => ?byteOut, fun h => ?wordIn, fun h => ?wordOut⟩
  case value =>
    split
    next h => exact State.loadByte_of_in_range h
    next h => exact State.loadByte_of_out_of_range (Nat.lt_of_not_le h)
  case byteIn => rw [serve, State.loadByte_of_in_range h]
  case byteOut => rw [serve, State.loadByte_of_out_of_range h]
  case wordIn =>
    have hload := State.load16_of_in_range h
    exact ⟨_, hload, by rw [serve, hload], hiByte_wordOfBytes _ _, loByte_wordOfBytes _ _⟩
  case wordOut =>
    have hload := State.load16_of_out_of_range h
    exact ⟨hload, by rw [serve, hload]⟩

/-- Settles O11: `answerStore` says what the loader port makes of a store, and the rules for reading a written memory
say which cells it wrote. -/
theorem storesWriteTheirCellsOnly : Obligations.StoresWriteTheirCellsOnly := by
  refine fun s a b w hwf => ⟨fun h => ?byteIn, fun h => ?byteOut, fun h => ?wordIn, fun h => ?wordOut⟩
  case byteIn =>
    have hstore := State.storeByte_of_in_range h b
    exact ⟨_, hstore, congrArg (answerStore s) hstore, Memory.read_write_same hwf a b,
      fun _ hx => Memory.read_write_ne _ hx b, rfl, rfl, rfl⟩
  case byteOut =>
    have hstore := State.storeByte_of_out_of_range h b
    exact ⟨hstore, congrArg (answerStore s) hstore⟩
  case wordIn =>
    have hstore := State.store16_of_in_range h w
    exact ⟨_, hstore, congrArg (answerStore s) hstore, Memory.read_write16_hi hwf a w, Memory.read_write16_lo hwf a w,
      fun _ hhi hlo => Memory.read_write16_ne _ hhi hlo w, rfl, rfl, rfl⟩
  case wordOut =>
    have hstore := State.store16_of_out_of_range h w
    exact ⟨hstore, congrArg (answerStore s) hstore⟩

theorem State.loadByte_withMem {s : State} {a : Nat} (h : a ≤ s.config.maxOffset) (m : Memory) :
    (s.withMem m).loadByte a = .ok (m.read a) :=
  State.loadByte_of_in_range (s := s.withMem m) h

theorem State.load16_withMem {s : State} {a : Nat} (h : a + 1 ≤ s.config.maxOffset) (m : Memory) :
    (s.withMem m).load16 a = .ok (wordOfBytes (m.read a) (m.read (a + 1))) :=
  State.load16_of_in_range (s := s.withMem m) h

theorem Memory.wordOfBytes_read_write16 {m : Memory} (h : m.wf) (a : Nat) (w : Word) :
    wordOfBytes ((m.write16 a w).read a) ((m.write16 a w).read (a + 1)) = w := by
  rw [Memory.read_write16_hi h, Memory.read_write16_lo h, wordOfBytes_hi_lo]

/-- Settles O12: the cells written are the cells loaded, and the two bytes of a word are the word. -/
theorem loadAfterStoreReturnsTheValue : Obligations.LoadAfterStoreReturnsTheValue := by
  refine fun s a b v hwf => ⟨fun h => ?word, fun h => ?byte⟩
  case word =>
    refine ⟨_, State.store16_of_in_range h v, ?_⟩
    rw [State.load16_withMem h, Memory.wordOfBytes_read_write16 hwf]
  case byte =>
    refine ⟨_, State.storeByte_of_in_range h b, ?_⟩
    rw [State.loadByte_withMem h, Memory.read_write_same hwf]

/-! The two fetches in range, with IP at `p`. -/

theorem fetchByte_of_in_range {s : State} {p : Word} (h : p.toNat ≤ s.config.maxOffset) (phase : Phase) :
    fetchByte phase (s.withIp p) = .done (s.mem.read p.toNat) (s.withIp (p + 1)) := by
  simp only [fetchByte, State.withIp_ip, State.loadByte_of_in_range (s := s.withIp p) h]
  rfl

theorem fetchWord_of_in_range {s : State} {p : Word} (h : p.toNat + 1 ≤ s.config.maxOffset) (phase : Phase) :
    fetchWord phase (s.withIp p) =
      .done (wordOfBytes (s.mem.read p.toNat) (s.mem.read (p.toNat + 1))) (s.withIp (p + 2)) := by
  simp only [fetchWord, State.withIp_ip, State.load16_of_in_range (s := s.withIp p) h]
  rfl

/-- Settles O13: loads and fetches join two cells by `wordOfBytes`, whose value `toNat_wordOfBytes` gives, and a store
splits its word into the bytes that the byte loads read. -/
theorem everySixteenBitQuantityIsBigEndian : Obligations.EverySixteenBitQuantityIsBigEndian := by
  refine fun s a w hwf => ⟨fun h => ⟨?load, ?store⟩, fun h => ?fetch⟩
  case load => exact ⟨_, State.load16_of_in_range h, toNat_wordOfBytes _ _⟩
  case store =>
    refine ⟨_, State.store16_of_in_range h w, ?_, ?_⟩
    · rw [State.loadByte_withMem (Nat.le_of_succ_le h), Memory.read_write16_hi hwf, hiByte]
    · rw [State.loadByte_withMem h, Memory.read_write16_lo hwf, loByte]
  case fetch => exact ⟨_, _, fetchWord_of_in_range h .operandFetch, toNat_wordOfBytes _ _⟩

/-- Settles O16: a push is a store at the cursor, so its cells are those of O11, and the cursor is set after it. -/
theorem pushesStoreAtTheCursor : Obligations.PushesStoreAtTheCursor := by
  refine fun s b w hwf => ⟨fun h => ?byteIn, fun h => ?byteOut, fun h => ?wordIn, fun h => ?wordOut⟩
  case byteIn =>
    have hpush := State.pushByte_of_in_range h b
    exact ⟨_, hpush, congrArg (answerStore s) hpush, Memory.read_write_same hwf _ b,
      fun _ hx => Memory.read_write_ne _ hx b, rfl, rfl, rfl⟩
  case byteOut =>
    have hpush := State.pushByte_of_out_of_range h b
    exact ⟨hpush, congrArg (answerStore s) hpush⟩
  case wordIn =>
    have hpush := State.push16_of_in_range h w
    exact ⟨_, hpush, congrArg (answerStore s) hpush, Memory.read_write16_hi hwf _ w, Memory.read_write16_lo hwf _ w,
      fun _ hhi hlo => Memory.read_write16_ne _ hhi hlo w, rfl, rfl, rfl⟩
  case wordOut =>
    have hpush := State.push16_of_out_of_range h w
    exact ⟨hpush, congrArg (answerStore s) hpush⟩

/-- A completed `MOV_REG_TO_MEM` has written the two cells at its address, which are in range (R91). -/
theorem execMovRegToMem_next {s t : State} {operand : Byte} {r : Reg} {ad : Word}
    (hr : ReadableSource s.config operand r) (h : exec (.movRegToMem operand ad) s = .next t) :
    ad.toNat + 1 ≤ t.config.maxOffset ∧ t.mem = s.mem.write16 ad.toNat (s.reg r) := by
  rw [exec, execMovRegToMem, withSource_of_readable hr] at h
  rcases finishStore16_cases s ad (s.reg r) with ⟨hrange, e⟩ | ⟨_, e⟩ <;> rw [e] at h <;> cases h
  exact ⟨hrange, rfl⟩

/-- Settles O59: both fetches load from the memory that the store left, in the same range. -/
theorem storeIsSeenByTheNextFetch : Obligations.StoreIsSeenByTheNextFetch := by
  intro s t operand r ad hwf hr hexec
  obtain ⟨hrange, hmem⟩ := execMovRegToMem_next hr hexec
  refine ⟨?opcode, ?word⟩
  case opcode => rw [fetchByte_of_in_range (Nat.le_of_succ_le hrange), hmem, Memory.read_write16_hi hwf, hiByte]
  case word => rw [fetchWord_of_in_range hrange, hmem, Memory.wordOfBytes_read_write16 hwf]

end Sys2Proof.Machine
end

section
/-! O56: the part of a state that a program can reach, the cells up to 0x10000 (spec/20_memory.md R33), takes the same
steps as the state. -/

namespace Sys2Proof.Machine

/-- The cells up to address `n`, with nothing listed above. -/
def Memory.upTo (n : Nat) (m : Memory) : Memory := m.filter fun c => c.1 ≤ n

theorem Memory.read_upTo (n : Nat) (m : Memory) (a : Nat) :
    (m.upTo n).read a = if a ≤ n then m.read a else Memory.unlisted := by
  induction m with
  | nil => simp [Memory.upTo, Memory.read]
  | cons c m ih =>
    obtain ⟨b, v⟩ := c
    rw [Memory.upTo] at ih
    by_cases hb : b ≤ n
    · by_cases hab : a = b <;> simp [Memory.upTo, Memory.read, ih, hb, hab]
    · have hne : a ≤ n → a ≠ b := by omega
      by_cases ha : a ≤ n <;> simp [Memory.upTo, Memory.read, ih, hb, ha, hne]

theorem Memory.upTo_wf {m : Memory} (h : m.wf) (n : Nat) : (m.upTo n).wf := by
  obtain ⟨hsorted, hlisted⟩ := h
  exact ⟨hsorted.filter _, fun c hc => hlisted c (List.mem_of_mem_filter hc)⟩

/-- Canonical memories are told apart by their reads (O14), and below the bound both sides read alike. -/
theorem Memory.upTo_write {m : Memory} (h : m.wf) {n a : Nat} (ha : a ≤ n) (v : Byte) :
    (m.write a v).upTo n = (m.upTo n).write a v := by
  refine canonicalMemoriesThatReadAlikeAreEqual _ _ (Memory.upTo_wf (Memory.write_wf h a v) n)
    (Memory.write_wf (Memory.upTo_wf h n) a v) fun x => ?_
  rw [Memory.read_upTo, Memory.read_write h, Memory.read_write (Memory.upTo_wf h n), Memory.read_upTo]
  by_cases hx : x = a
  · simp [hx, ha]
  · simp [hx]

theorem Memory.upTo_write16 {m : Memory} (h : m.wf) {n a : Nat} (ha : a + 1 ≤ n) (w : Word) :
    (m.write16 a w).upTo n = (m.upTo n).write16 a w := by
  rw [Memory.write16, Memory.upTo_write (Memory.write_wf h a _) ha, Memory.upTo_write h (Nat.le_of_succ_le ha),
    Memory.write16]

/-- What a program can observe of a state: 0x10000 is the second cell of a word at the last 16-bit address. -/
def State.reach (s : State) : State := s.withMem (s.mem.upTo 0x10000)

@[simp] theorem State.reach_config (s : State) : s.reach.config = s.config := rfl
@[simp] theorem State.reach_ip (s : State) : s.reach.ip = s.ip := rfl

theorem State.read_reach (s : State) {a : Nat} (ha : a ≤ 0x10000) : s.reach.mem.read a = s.mem.read a := by
  simp [State.reach, Memory.read_upTo, ha]

/-- States that agree on all that a program can observe have the same reach. -/
theorem State.reach_eq {s t : State} (hs : s.mem.wf) (ht : t.mem.wf) (hregs : s.regs = t.regs) (hrest : SameRest s t)
    (hread : ∀ a, a ≤ 0x10000 → s.mem.read a = t.mem.read a) : s.reach = t.reach := by
  have hmem : s.mem.upTo 0x10000 = t.mem.upTo 0x10000 := by
    refine canonicalMemoriesThatReadAlikeAreEqual _ _ (Memory.upTo_wf hs _) (Memory.upTo_wf ht _) fun a => ?_
    rw [Memory.read_upTo, Memory.read_upTo]
    split
    next ha => exact hread a ha
    next => rfl
  obtain ⟨hcursor, hconfig⟩ := hrest
  rw [State.reach, State.reach, State.withMem, State.withMem, hmem, hregs, hcursor, hconfig]

/-- States with the same reach agree on all that a program can observe. -/
theorem State.agree_of_reach_eq {s t : State} (h : s.reach = t.reach) :
    s.regs = t.regs ∧ SameRest s t ∧ ∀ a, a ≤ 0x10000 → s.mem.read a = t.mem.read a :=
  have hregs : s.reach.regs = t.reach.regs := congrArg _ h
  have hrest : SameRest s.reach t.reach := ⟨congrArg _ h.symm, congrArg _ h.symm⟩
  ⟨hregs, hrest, fun a ha => by rw [← s.read_reach ha, h, t.read_reach ha]⟩

/-! The fetches: every address is that of a 16-bit IP, or one more. -/

theorem fetchByte_reach (phase : Phase) (s : State) :
    fetchByte phase s.reach = (fetchByte phase s).mapState .reach := by
  have hload : s.reach.loadByte s.ip.toNat = s.loadByte s.ip.toNat := by
    rw [State.loadByte, State.loadByte, s.read_reach (by omega), State.reach_config]
  simp only [fetchByte, State.reach_ip, hload]
  cases s.loadByte s.ip.toNat <;> rfl

/-- A word at a 16-bit address lies within the reach. -/
theorem State.load16_reach (s : State) (ad : Word) : s.reach.load16 ad.toNat = s.load16 ad.toNat := by
  rw [State.load16, State.load16, s.read_reach (by omega), s.read_reach (by omega), State.reach_config]

theorem fetchWord_reach (phase : Phase) (s : State) :
    fetchWord phase s.reach = (fetchWord phase s).mapState .reach := by
  simp only [fetchWord, State.reach_ip, s.load16_reach]
  cases s.load16 s.ip.toNat <;> rfl

theorem fetchRR_reach (mk : Byte → Byte → Instr) (s : State) :
    fetchRR mk s.reach = (fetchRR mk s).mapState .reach :=
  Fetched.andThen_comm (fetchByte_reach _ s) fun _ t => Fetched.andThen_comm (fetchByte_reach _ t) fun _ _ => rfl

theorem fetchWR_reach (mk : Word → Byte → Instr) (s : State) :
    fetchWR mk s.reach = (fetchWR mk s).mapState .reach :=
  Fetched.andThen_comm (fetchWord_reach _ s) fun _ t => Fetched.andThen_comm (fetchByte_reach _ t) fun _ _ => rfl

theorem fetchRW_reach (mk : Byte → Word → Instr) (s : State) :
    fetchRW mk s.reach = (fetchRW mk s).mapState .reach :=
  Fetched.andThen_comm (fetchByte_reach _ s) fun _ t => Fetched.andThen_comm (fetchWord_reach _ t) fun _ _ => rfl

theorem fetchOperands_reach (op : Opcode) (s : State) :
    fetchOperands op s.reach = (fetchOperands op s).mapState .reach := by
  cases op with
  | addRegToReg | andRegToReg | orRegToReg | movRegToReg => exact fetchRR_reach _ s
  | movLiteralToReg | movMemToReg => exact fetchWR_reach _ s
  | movRegToMem => exact fetchRW_reach _ s
  | noOp | unknown _ => rfl

theorem fetchInstr_reach (s : State) : fetchInstr s.reach = (fetchInstr s).mapState .reach :=
  Fetched.andThen_comm (fetchByte_reach _ s) fun _ t => fetchOperands_reach _ t

/-! The execute phase: the checks read the parameters alone, and both data cells are within the reach. -/

theorem withSource_reach {s : State} {k k' : Reg → Result} (hk : ∀ r, k' r = (k r).mapState .reach)
    (operand : Byte) : withSource s.reach operand k' = (withSource s operand k).mapState .reach := by
  simp only [withSource, State.reach_config]
  cases checkSource s.config operand with
  | ok r => exact hk r
  | error a => rfl

theorem withDest_reach {s : State} {k k' : Reg → Result} (hk : ∀ r, k' r = (k r).mapState .reach)
    (operand : Byte) : withDest s.reach operand k' = (withDest s operand k).mapState .reach := by
  simp only [withDest, State.reach_config]
  cases checkDest s.config operand with
  | ok r => exact hk r
  | error a => rfl

theorem withLoad16_reach {s : State} {k k' : Word → Result} (hk : ∀ v, k' v = (k v).mapState .reach) (ad : Word) :
    withLoad16 s.reach ad k' = (withLoad16 s ad k).mapState .reach := by
  simp only [withLoad16, dataAddress, s.load16_reach]
  cases s.load16 ad.toNat with
  | ok v => exact hk v
  | error f => rfl

/-- In canonical memory, storing a word at a 16-bit address and taking the reach commute. -/
theorem State.store16_reach {s : State} (hs : s.mem.wf) (ad v : Word) :
    s.reach.store16 ad.toNat v = (s.store16 ad.toNat v).map .reach := by
  by_cases h : ad.toNat + 1 ≤ s.config.maxOffset
  · have hmem : (s.mem.write16 ad.toNat v).upTo 0x10000 = (s.mem.upTo 0x10000).write16 ad.toNat v :=
      Memory.upTo_write16 hs (by omega) v
    rw [State.store16_of_in_range h, State.store16_of_in_range (s := s.reach) h, Except.map, State.reach, State.reach,
      State.withMem_mem, State.withMem_mem, hmem]
    rfl
  · have hout := Nat.lt_of_not_le h
    rw [State.store16_of_out_of_range hout, State.store16_of_out_of_range (s := s.reach) hout, Except.map]

theorem finishStore16_reach {s : State} (hs : s.mem.wf) (ad v : Word) :
    finishStore16 s.reach ad v = (finishStore16 s ad v).mapState .reach := by
  simp only [finishStore16, dataAddress, State.store16_reach hs]
  cases s.store16 ad.toNat v <;> rfl

theorem next_setReg_reach (s : State) (r : Reg) (v : Word) :
    (.next (s.reach.setReg r v) : Result) = Result.mapState .reach (.next (s.setReg r v)) := rfl

theorem aluToAcc_reach (f : Word → Word → Word) (a b : Byte) (s : State) :
    aluToAcc f a b s.reach = (aluToAcc f a b s).mapState .reach :=
  withSource_reach (fun _ => withSource_reach (fun _ => next_setReg_reach s _ _) b) a

theorem exec_reach (i : Instr) {s : State} (hs : s.mem.wf) : exec i s.reach = Result.mapState .reach (exec i s) := by
  cases i with
  | addRegToReg a b | andRegToReg a b | orRegToReg a b => exact aluToAcc_reach _ a b s
  | movLiteralToReg w d => exact withDest_reach (fun _ => next_setReg_reach s _ w) d
  | movMemToReg ad d => exact withDest_reach (fun _ => withLoad16_reach (fun v => next_setReg_reach s _ v) ad) d
  | movRegToMem a ad => exact withSource_reach (fun r => finishStore16_reach hs ad (s.reg r)) a
  | movRegToReg a d => exact withSource_reach (fun _ => withDest_reach (fun _ => next_setReg_reach s _ _) d) a
  | noOp | unknownOpcode _ => rfl

/-- Fetching leaves memory as it is, so the execute phase too starts in canonical memory. -/
theorem step_reach {s : State} (hs : s.mem.wf) : step s.reach = Result.mapState .reach (step s) := by
  have hip := fetchInstr_movesOnlyIp s
  simp only [step, fetchInstr_reach]
  cases hf : fetchInstr s with
  | done i t =>
    rw [hf] at hip
    obtain ⟨p, rfl⟩ := hip
    exact exec_reach i (s := s.withIp p) hs
  | stop f => rfl

/-- The step port answers a state and its reach alike, and leaves the one the reach of the other. -/
theorem stepPort_reach {s : State} (hs : s.mem.wf) : stepPort s.reach = ((stepPort s).1, (stepPort s).2.reach) := by
  simp only [stepPort, step_reach hs]
  cases step s with
  | next t => rfl
  | fault f => cases f <;> rfl
  | refused r => rfl

/-- The one store of an execute phase is at a 16-bit address, so it writes no cell above 0x10000. -/
theorem exec_next_read_above {i : Instr} {u t : State} (h : exec i u = .next t) {a : Nat} (ha : 0x10000 < a) :
    t.mem.read a = u.mem.read a := by
  have hc := exec_next_cases h
  cases i with
  | addRegToReg | andRegToReg | orRegToReg => obtain ⟨_, rfl⟩ := hc; rfl
  | movLiteralToReg | movMemToReg | movRegToReg => obtain ⟨_, _, _, _, rfl⟩ := hc; rfl
  | movRegToMem _ ad =>
    obtain ⟨v, _, rfl⟩ := hc
    rw [State.withMem_mem, Memory.read_write_ne _ (by omega), Memory.read_write_ne _ (by omega)]
  | noOp | unknownOpcode _ => obtain rfl : t = u := hc; rfl

theorem stepPort_read_above (s : State) {a : Nat} (ha : 0x10000 < a) : (stepPort s).2.mem.read a = s.mem.read a := by
  rw [stepPort]
  cases h : step s with
  | next t =>
    obtain ⟨i, p, hexec⟩ := step_next_cases h
    exact exec_next_read_above hexec ha
  | fault f =>
    obtain ⟨p, hafter⟩ := step_fault_after h
    simp only [hafter, State.withIp_mem]
  | refused r => rfl

/-- Settles O56: the two states have the same reach, the step port's answer and the reach it leaves are those of that
one state, and states of the same reach agree. -/
theorem cellsAboveTheReachAreInvisible : Obligations.CellsAboveTheReachAreInvisible := by
  intro s t hs ht hregs hrest hread
  obtain ⟨hsmem, _⟩ := hs
  obtain ⟨htmem, _⟩ := ht
  have hport : ((stepPort s).1, (stepPort s).2.reach) = ((stepPort t).1, (stepPort t).2.reach) := by
    rw [← stepPort_reach hsmem, ← stepPort_reach htmem, State.reach_eq hsmem htmem hregs hrest hread]
  obtain ⟨hanswer, hreach⟩ := Prod.mk.inj hport
  obtain ⟨hregs', hrest', hread'⟩ := State.agree_of_reach_eq hreach
  exact ⟨hanswer, hregs', hrest', hread', fun _ => stepPort_read_above s⟩

end Sys2Proof.Machine
end

section
/-! O1 to O7: the opcode byte and the operand bytes apart. An opcode byte is decoded to the tag it stands for, and
the operand bytes of a tag are the instruction's own (spec/30_encoding.md R58, R59, R63 to R65). -/

namespace Sys2Proof

/-! The opcode byte. -/

/-- The byte that stands for a tag: the first byte of its encoding. -/
def Opc.byteOf (c : Opc) : Opcode → Byte
  | .addRegToReg => c.addRegToReg
  | .andRegToReg => c.andRegToReg
  | .orRegToReg => c.orRegToReg
  | .movLiteralToReg => c.movLiteralToReg
  | .movMemToReg => c.movMemToReg
  | .movRegToMem => c.movRegToMem
  | .movRegToReg => c.movRegToReg
  | .noOp => c.noOp
  | .unknown b => b

/-- An unknown byte is one that no other row of the table takes (R63). -/
def Opcode.wf (c : Opc) : Opcode → Prop
  | .unknown b => b ∉ c.effectBytes ∧ b ≠ c.noOp
  | .addRegToReg | .andRegToReg | .orRegToReg | .movLiteralToReg | .movMemToReg | .movRegToMem | .movRegToReg
  | .noOp => True

theorem Instr.wf_iff_opcode_wf (c : Opc) (i : Instr) : i.wf c = true ↔ i.opcode.wf c := by
  cases i <;> simp [Instr.wf, Opcode.wf, Instr.opcode]

/-- Decoding a byte loses nothing: the tag stands for that byte alone. -/
@[simp] theorem Opc.byteOf_decodeOpcode (c : Opc) (b : Byte) : c.byteOf (decodeOpcode c b) = b := by
  have hb := decodeOpcode_cases c b
  cases hop : decodeOpcode c b with
  | unknown x => rw [hop] at hb; exact hb.1
  | _ => rw [hop] at hb; exact hb.symm

theorem decodeOpcode_wf (c : Opc) (b : Byte) : (decodeOpcode c b).wf c := by
  have hb := decodeOpcode_cases c b
  cases hop : decodeOpcode c b with
  | unknown x => rw [hop] at hb; obtain ⟨rfl, hx⟩ := hb; exact hx
  | _ => trivial

/-- The bytes of a well-formed `OPC` differ, so none is taken by an earlier row of the table. -/
theorem decodeOpcode_byteOf {c : Opc} (h : c.wf) {op : Opcode} (hop : op.wf c) :
    decodeOpcode c (c.byteOf op) = op := by
  have hne := Opc.wf_ne h
  cases op with
  | unknown b =>
    simp only [Opcode.wf, Opc.effectBytes, List.mem_cons, List.not_mem_nil, or_false, not_or] at hop
    simp [decodeOpcode, Opc.byteOf, hop]
  | _ => simp [decodeOpcode, Opc.byteOf, hne]

/-- A byte outside the image of `OPC` is `NO_OP` or unknown (R63). -/
theorem decodeOpcode_of_not_mem {c : Opc} {b : Byte} (h : b ∉ c.effectBytes) :
    decodeOpcode c b = .noOp ∨ decodeOpcode c b = .unknown b := by
  have hb := decodeOpcode_cases c b
  cases hop : decodeOpcode c b with
  | noOp => exact .inl rfl
  | unknown x => rw [hop] at hb; exact .inr (congrArg _ hb.1)
  | _ => rw [hop] at hb; exact absurd (by simp [hb, Opc.effectBytes]) h

/-! The operand bytes. -/

/-- The bytes of an instruction after its opcode byte, the operands in fetch order. -/
def Instr.operandBytes : Instr → List Byte
  | .addRegToReg a b | .andRegToReg a b | .orRegToReg a b | .movRegToReg a b => [a, b]
  | .movLiteralToReg w d | .movMemToReg w d => [hiByte w, loByte w, d]
  | .movRegToMem r w => [r, hiByte w, loByte w]
  | .noOp | .unknownOpcode _ => []

theorem encode_eq_cons (c : Opc) (i : Instr) : encode c i = c.byteOf i.opcode :: i.operandBytes := by
  cases i <;> rfl

/-- What decoding does once the opcode byte is decoded. -/
def decodeOperands : Opcode → List Byte → Except DecodeError (Instr × List Byte)
  | .addRegToReg => decodeRR .addRegToReg .addRegToReg
  | .andRegToReg => decodeRR .andRegToReg .andRegToReg
  | .orRegToReg => decodeRR .orRegToReg .orRegToReg
  | .movLiteralToReg => decodeWR .movLiteralToReg .movLiteralToReg
  | .movMemToReg => decodeWR .movMemToReg .movMemToReg
  | .movRegToMem => decodeRW .movRegToMem .movRegToMem
  | .movRegToReg => decodeRR .movRegToReg .movRegToReg
  | .noOp => fun rest => .ok (.noOp, rest)
  | .unknown b => fun rest => .ok (.unknownOpcode b, rest)

theorem decode_cons (c : Opc) (b : Byte) (bs : List Byte) :
    decode c (b :: bs) = decodeOperands (decodeOpcode c b) bs := by
  rw [decode]
  cases decodeOpcode c b <;> rfl

theorem decodeRR_ok {op : Opcode} {mk : Byte → Byte → Instr} {bs rest : List Byte} {i : Instr}
    (h : decodeRR op mk bs = .ok (i, rest)) : ∃ a b, i = mk a b ∧ bs = a :: b :: rest := by
  unfold decodeRR at h
  split at h <;> cases h
  exact ⟨_, _, rfl, rfl⟩

theorem decodeWR_ok {op : Opcode} {mk : Word → Byte → Instr} {bs rest : List Byte} {i : Instr}
    (h : decodeWR op mk bs = .ok (i, rest)) : ∃ w d, i = mk w d ∧ bs = hiByte w :: loByte w :: d :: rest := by
  unfold decodeWR at h
  split at h <;> cases h
  exact ⟨_, _, rfl, by simp⟩

theorem decodeRW_ok {op : Opcode} {mk : Byte → Word → Instr} {bs rest : List Byte} {i : Instr}
    (h : decodeRW op mk bs = .ok (i, rest)) : ∃ r w, i = mk r w ∧ bs = r :: hiByte w :: loByte w :: rest := by
  unfold decodeRW at h
  split at h <;> cases h
  exact ⟨_, _, rfl, by simp⟩

theorem decodeOperands_operandBytes (i : Instr) (rest : List Byte) :
    decodeOperands i.opcode (i.operandBytes ++ rest) = .ok (i, rest) := by
  cases i with
  | addRegToReg | andRegToReg | orRegToReg | movRegToReg | noOp | unknownOpcode => rfl
  | movLiteralToReg | movMemToReg =>
    simp [decodeOperands, Instr.opcode, Instr.operandBytes, decodeWR]
  | movRegToMem => simp [decodeOperands, Instr.opcode, Instr.operandBytes, decodeRW]

/-- Whatever the operands of a tag are decoded to has that tag, and those operands. -/
theorem decodeOperands_ok {op : Opcode} {bs rest : List Byte} {i : Instr}
    (h : decodeOperands op bs = .ok (i, rest)) : i.opcode = op ∧ bs = i.operandBytes ++ rest := by
  cases op with
  | addRegToReg | andRegToReg | orRegToReg | movRegToReg =>
    obtain ⟨a, b, rfl, rfl⟩ := decodeRR_ok h
    exact ⟨rfl, rfl⟩
  | movLiteralToReg | movMemToReg =>
    obtain ⟨w, d, rfl, rfl⟩ := decodeWR_ok h
    exact ⟨rfl, rfl⟩
  | movRegToMem =>
    obtain ⟨r, w, rfl, rfl⟩ := decodeRW_ok h
    exact ⟨rfl, rfl⟩
  | noOp | unknown => cases h; exact ⟨rfl, rfl⟩

/-- Three bytes are operands enough for every tag. -/
theorem decodeOperands_three (op : Opcode) (x y z : Byte) :
    ∃ i rest, decodeOperands op [x, y, z] = .ok (i, rest) := by
  cases op <;> exact ⟨_, _, rfl⟩

/-- An instruction decoded from a list of bytes has the tag of the first byte and the operands that follow it. -/
theorem decode_cons_ok {c : Opc} {b : Byte} {bs rest : List Byte} {i : Instr}
    (h : decode c (b :: bs) = .ok (i, rest)) : i.opcode = decodeOpcode c b ∧ bs = i.operandBytes ++ rest :=
  decodeOperands_ok (decode_cons c b bs ▸ h)

/-! The statements. -/

/-- Settles O1: the opcode byte decodes to the instruction's tag, and its operand bytes to the instruction. -/
theorem decodeOfEncodeGivesTheInstruction : Obligations.DecodeOfEncodeGivesTheInstruction := by
  intro c i rest hc hi
  have hop : decodeOpcode c (c.byteOf i.opcode) = i.opcode :=
    decodeOpcode_byteOf hc ((Instr.wf_iff_opcode_wf c i).mp hi)
  rw [encode_eq_cons, List.cons_append, decode_cons, hop, decodeOperands_operandBytes]

/-- Settles O2: the instruction's tag is the one the first byte decodes to, and that tag stands for that byte. -/
theorem decodedBytesAreTheEncoding : Obligations.DecodedBytesAreTheEncoding := by
  intro c bs rest i h
  cases bs with
  | nil => cases h
  | cons b bs =>
    obtain ⟨hop, rfl⟩ := decode_cons_ok h
    rw [encode_eq_cons, Instr.wf_iff_opcode_wf, hop, Opc.byteOf_decodeOpcode]
    exact ⟨rfl, decodeOpcode_wf c b⟩

/-- Settles O3: a 16-bit operand is written as the two bytes it was made of. -/
theorem formatsByteByByte : Obligations.FormatsByteByByte := by
  refine fun c a b hi lo => ⟨rfl, rfl, rfl, rfl, ?movLiteral, ?movMem, ?movToMem, rfl, rfl⟩
  all_goals simp only [encode, Machine.hiByte_wordOfBytes, Machine.loByte_wordOfBytes]

/-- The image of the reference assignment is the seven bytes 0x10 to 0x16 (R62). -/
theorem mem_reference_effectBytes {n : Nat} (h : n < 256) :
    BitVec.ofNat 8 n ∈ Opc.reference.effectBytes ↔ n ∈ Finset.Ico 0x10 0x17 := by
  simp only [Opc.effectBytes, Opc.reference, BitVec.ofNat_eq_ofNat, List.mem_cons, ← BitVec.toNat_inj,
    BitVec.toNat_ofNat, Nat.reducePow, Nat.mod_eq_of_lt h, Nat.reduceMod, List.not_mem_nil, or_false, Finset.mem_Ico]
  omega

theorem length_bytes_outside_reference :
    ((List.range 256).filter fun n => decide (BitVec.ofNat 8 n ∉ Opc.reference.effectBytes)).length = 249 := by
  have hfilter : (Finset.range 256).filter (fun n => BitVec.ofNat 8 n ∉ Opc.reference.effectBytes) =
      Finset.range 256 \ Finset.Ico 0x10 0x17 := by
    rw [Finset.sdiff_eq_filter]
    exact Finset.filter_congr fun n hn => not_congr (mem_reference_effectBytes (Finset.mem_range.mp hn))
  have hsub : Finset.Ico 0x10 0x17 ⊆ Finset.range 256 := by
    rw [Finset.range_eq_Ico]
    exact Finset.Ico_subset_Ico (by decide) (by decide)
  calc _ = ((Finset.range 256).filter fun n => BitVec.ofNat 8 n ∉ Opc.reference.effectBytes).card := rfl
    _ = 256 - 7 := by rw [hfilter, Finset.card_sdiff_of_subset hsub, Finset.card_range, Nat.card_Ico]

/-- Settles O4: outside `OPC` the tag is `NO_OP` or unknown, which has no operands and no effect; the image
of the reference assignment is seven bytes; and four bytes are enough for any tag. -/
theorem bytesOutsideOpcDecodeAsNoOp : Obligations.BytesOutsideOpcDecodeAsNoOp := by
  refine ⟨fun c b rest hb => ?outside, length_bytes_outside_reference, fun c b x y z => ?total⟩
  case outside =>
    rw [decode_cons]
    rcases decodeOpcode_of_not_mem hb with hop | hop <;> rw [hop]
    · exact ⟨.noOp, rfl, .inl rfl, fun _ => rfl⟩
    · exact ⟨.unknownOpcode b, rfl, .inr rfl, fun _ => rfl⟩
  case total =>
    rw [decode_cons]
    exact decodeOperands_three _ x y z

/-- What `Laws.EncodingLength` says of each constructor, of every instruction. -/
theorem encodingLength : ∀ i : Instr, Laws.EncodingLength.Statement i
  | .addRegToReg a b => Laws.EncodingLength.addRegToReg a b
  | .andRegToReg a b => Laws.EncodingLength.andRegToReg a b
  | .orRegToReg a b => Laws.EncodingLength.orRegToReg a b
  | .movLiteralToReg w d => Laws.EncodingLength.movLiteralToReg w d
  | .movMemToReg w d => Laws.EncodingLength.movMemToReg w d
  | .movRegToMem r w => Laws.EncodingLength.movRegToMem r w
  | .movRegToReg a b => Laws.EncodingLength.movRegToReg a b
  | .noOp => Laws.EncodingLength.noOp
  | .unknownOpcode op => Laws.EncodingLength.unknownOpcode op

/-- Settles O5: the bytes consumed are the encoding (O2), and its tag is that of the first byte. -/
theorem lengthDecidedByTheOpcodeByte : Obligations.LengthDecidedByTheOpcodeByte := by
  intro c b rest rest' i h
  obtain ⟨hbytes, _⟩ := decodedBytesAreTheEncoding c _ _ _ h
  obtain ⟨hop, _⟩ := decode_cons_ok h
  obtain ⟨hlength, hcases⟩ := encodingLength i c
  rw [← hop]
  exact ⟨by rw [hbytes, List.length_append, hlength], hcases⟩

/-- Settles O6: each effect tag stands for its byte, so that byte decodes to it. -/
theorem opcodeBytesDecodeToTheirSchemas : Obligations.OpcodeBytesDecodeToTheirSchemas := by
  intro c hc
  have decodes : ∀ op : Opcode, op.wf c → decodeOpcode c (c.byteOf op) = op := fun _ => decodeOpcode_byteOf hc
  refine ⟨⟨decodes .addRegToReg trivial, rfl⟩, ⟨decodes .andRegToReg trivial, rfl⟩,
    ⟨decodes .orRegToReg trivial, rfl⟩, ⟨decodes .movRegToReg trivial, rfl⟩,
    ⟨decodes .movLiteralToReg trivial, rfl⟩, ⟨decodes .movMemToReg trivial, rfl⟩,
    ⟨decodes .movRegToMem trivial, rfl⟩, fun b hb => ?_⟩
  rcases decodeOpcode_of_not_mem hb with hop | hop <;> rw [hop] <;> rfl

/-- Settles O7: nine closed words, each decoded by evaluation. -/
theorem exampleWordsDecode : Obligations.ExampleWordsDecode := by
  unfold Obligations.ExampleWordsDecode
  decide

end Sys2Proof
end

section
/-! O8 and O18: the registers that operand bytes name (spec/30_encoding.md R61), and the listing form, which writes
them by name (R66). -/

namespace Sys2Proof.Machine

/-! Operand bytes. -/

theorem operandId_of_le_seven (c : Config) {r : Byte} (h : r.toNat ≤ 7) :
    operandId c r = some ⟨r.toNat, Nat.lt_succ_of_le h⟩ :=
  dif_pos _

theorem operandId_of_fault {c : Config} {r : Byte} (h : 8 ≤ r.toNat) (hpolicy : c.regIdPolicy = .fault) :
    operandId c r = none := by
  simp [operandId, Nat.not_lt.mpr h, hpolicy]

theorem operandId_of_mod8 {c : Config} {r : Byte} (h : 8 ≤ r.toNat) (hpolicy : c.regIdPolicy = .mod8) :
    operandId c r = some ⟨r.toNat % 8, Nat.mod_lt _ (by decide)⟩ := by
  simp [operandId, Nat.not_lt.mpr h, hpolicy]

theorem withSource_of_no_id {s : State} {r : Byte} (h : operandId s.config r = none) (k : Reg → Result) :
    withSource s r k = .fault (.badRegister r.toNat s) := by
  rcases withSource_cases s r k with ⟨id, hid, _⟩ | ⟨_, e⟩
  · simp [h] at hid
  · exact e

theorem withDest_of_no_id {s : State} {r : Byte} (h : operandId s.config r = none) (k : Reg → Result) :
    withDest s r k = .fault (.badRegister r.toNat s) := by
  rcases withDest_cases s r k with ⟨id, hid, _⟩ | ⟨id, hid, _⟩ | ⟨_, e⟩
  · simp [h] at hid
  · simp [h] at hid
  · exact e

theorem regOf_of_listingOrder {c : Config} (h : c.regMap = Config.listingOrder) (id : RegId) :
    regOf c id = Config.listingOrder[id] := by
  rw [regOf, h]

/-- Settles O18: the three ranges of an operand byte by policy, and the eight entries of the listing order. -/
theorem registerOperandInterpretation : Obligations.RegisterOperandInterpretation := by
  refine fun c r => ⟨fun hr => ⟨_, rfl, operandId_of_le_seven c hr⟩, fun hr hpolicy => ?fault,
    fun hr hpolicy => ⟨_, rfl, operandId_of_mod8 hr hpolicy⟩, fun horder => ?order⟩
  case fault =>
    have hnone : operandId c r = none := operandId_of_fault hr hpolicy
    refine ⟨hnone, fun s k hs => ?_⟩
    subst hs
    exact ⟨withSource_of_no_id hnone k, withDest_of_no_id hnone k⟩
  case order =>
    simp only [regOf_of_listingOrder horder]
    decide

/-! Registers by name. -/

/-- The ids of the registers fit a byte. -/
theorem toNat_idByte (x : RegId) : (idByte x).toNat = x.val := by
  simp only [BitVec.toNat_ofNat]
  omega

theorem exists_idByte {r : Byte} (h : r.toNat ≤ 7) : ∃ x : RegId, r = idByte x :=
  have hid := toNat_idByte ⟨r.toNat, Nat.lt_succ_of_le h⟩
  ⟨_, BitVec.eq_of_toNat_eq hid.symm⟩

theorem isSome_listedReg (c : Config) (r : Byte) : (listedReg c r).isSome = true ↔ r.toNat ≤ 7 := by
  simp [listedReg, Nat.lt_succ_iff]

@[simp] theorem listedReg_idByte (c : Config) (x : RegId) : listedReg c (idByte x) = some (regOf c x) := by
  simp only [listedReg, toNat_idByte, dif_pos x.isLt]

/-- In a bijective `REGMAP` the first id that names a register is the only one. -/
theorem idOf_regOf {c : Config} (h : c.wf) (x : RegId) : idOf c (regOf c x) = idByte x := by
  obtain ⟨_, hnodup⟩ := h
  have hx : regOf c x = c.regMap.toList[x.val]'(by simp) := by simp [regOf]
  rw [idOf, hx, hnodup.idxOf_getElem]

theorem idOf_of_listedReg {c : Config} (h : c.wf) {r : Byte} {reg : Reg} (hr : listedReg c r = some reg) :
    idOf c reg = r := by
  have hle : r.toNat ≤ 7 := (isSome_listedReg c r).mp (by simp [hr])
  obtain ⟨x, rfl⟩ := exists_idByte hle
  obtain rfl : regOf c x = reg := by simpa using hr
  exact idOf_regOf h x

/-! The statement. -/

/-- A line exists when each register operand has a name. -/
theorem isSome_listing (c : Config) (i : Instr) :
    (listing c i).isSome = true ↔ (∀ b, i ≠ .unknownOpcode b) ∧ ∀ r ∈ regOperands i, r.toNat ≤ 7 := by
  cases i with
  | addRegToReg a b | andRegToReg a b | orRegToReg a b | movRegToReg a b =>
    simp only [regOperands, List.forall_mem_cons, ← isSome_listedReg c]
    cases ha : listedReg c a <;> simp [listing, ha, Option.isSome_bind]
  | movLiteralToReg _ d | movMemToReg _ d | movRegToMem d _ =>
    simp [listing, regOperands, Option.isSome_bind, ← isSome_listedReg c]
  | noOp => simp [listing, regOperands]
  | unknownOpcode op => simp [listing]

/-- Each register of a line is read back as the id it was written for. -/
theorem parseListing_of_listing {c : Config} (h : c.wf) {i : Instr} {ts : List Token} (hts : listing c i = some ts) :
    parseListing c ts = some i := by
  cases i with
  | addRegToReg a b | andRegToReg a b | orRegToReg a b | movRegToReg a b =>
    simp only [listing, Option.bind_eq_bind, Option.pure_def, Option.bind_eq_some_iff, Option.some.injEq] at hts
    obtain ⟨x, hx, y, hy, rfl⟩ := hts
    simp only [parseListing, idOf_of_listedReg h hx, idOf_of_listedReg h hy]
  | movLiteralToReg _ d | movMemToReg _ d | movRegToMem d _ =>
    simp only [listing, Option.bind_eq_bind, Option.pure_def, Option.bind_eq_some_iff, Option.some.injEq] at hts
    obtain ⟨x, hx, rfl⟩ := hts
    simp only [parseListing, idOf_of_listedReg h hx, wordOfBytes_hi_lo]
  | noOp => cases hts; rfl
  | unknownOpcode op => cases hts

/-- Settles O8: `listedReg_idByte` names the registers of a line, `idOf_regOf` reads them back, and the two bytes of a
word are the word. -/
theorem listingReadsBack : Obligations.ListingReadsBack := by
  refine fun c => ⟨isSome_listing c, fun x y hi lo => ?line, fun hc _ _ => parseListing_of_listing hc,
    fun hc x w => ?wordForms⟩
  case line => simp [listing]
  case wordForms => simp [parseListing, idOf_regOf hc]

end Sys2Proof.Machine
end

section
/-! O22 to O26: the fetches, those of the operands told by `firstOutOfRange`, and the step as the execute
phase of the instruction decoded from the bytes it consumes (spec/40_fetch_and_step.md R67 to R71, R74). -/

namespace Sys2Proof.Machine

/-- Settles O22: the two answers of each fetch; advancing IP adds the width modulo 2^16. -/
theorem fetchAdvancesOnlyAfterARead : Obligations.FetchAdvancesOnlyAfterARead := by
  refine fun s ph => ⟨fun h => ?byteIn, fun h => ?byteOut, fun h => ?wordIn, fun h => ?wordOut⟩
  case byteIn => exact ⟨s.ip + 1, BitVec.toNat_add _ _, fetchByte_of_in_range (s := s) h ph⟩
  case byteOut => simp only [fetchByte, State.loadByte_of_out_of_range h, raiseOutOfBounds]
  case wordIn =>
    exact ⟨_, s.ip + 2, toNat_wordOfBytes _ _, BitVec.toNat_add _ _, fetchWord_of_in_range (s := s) h ph⟩
  case wordOut => simp only [fetchWord, State.load16_of_out_of_range h, raiseOutOfBounds]

/-- Settles O23: the step ends in its first fetch. -/
theorem opcodeFetchFaultChangesNothing : Obligations.OpcodeFetchFaultChangesNothing := by
  intro s h
  obtain ⟨_, hstop, _⟩ := fetchAdvancesOnlyAfterARead s .opcodeFetch
  simp only [step, fetchInstr, hstop h, Fetched.andThen]

/-! The operands, fetched with IP at `p`. -/

/-- The fault of the first operand of the schema that is out of range (R71), and `x` when none is. -/
def operandFaultOr (s : State) (ws : List Width) (p : Word) (x : Fetched Instr) : Fetched Instr :=
  match firstOutOfRange s.config.maxOffset ws p with
  | some (q, w) => .stop (.outOfBounds q.toNat w .operandFetch (s.withIp q))
  | none => x

theorem operandFaultOr_nil (s : State) (p : Word) (x : Fetched Instr) : operandFaultOr s [] p x = x := rfl

theorem operandFaultOr_byte (s : State) (ws : List Width) (p : Word) (x : Fetched Instr) :
    operandFaultOr s (.byte :: ws) p x =
      if s.config.maxOffset < p.toNat then .stop (.outOfBounds p.toNat .byte .operandFetch (s.withIp p))
      else operandFaultOr s ws (p + 1) x := by
  by_cases h : s.config.maxOffset < p.toNat <;> simp [operandFaultOr, firstOutOfRange, Width.bytes, h]

theorem operandFaultOr_word (s : State) (ws : List Width) (p : Word) (x : Fetched Instr) :
    operandFaultOr s (.word :: ws) p x =
      if s.config.maxOffset < p.toNat + 1 then .stop (.outOfBounds p.toNat .word .operandFetch (s.withIp p))
      else operandFaultOr s ws (p + 2) x := by
  by_cases h : s.config.maxOffset < p.toNat + 1 <;> simp [operandFaultOr, firstOutOfRange, Width.bytes, h]

theorem fetchByte_andThen (s : State) (p : Word) (k : Byte → State → Fetched Instr) :
    (fetchByte .operandFetch (s.withIp p)).andThen k =
      if s.config.maxOffset < p.toNat then .stop (.outOfBounds p.toNat .byte .operandFetch (s.withIp p))
      else k (s.mem.read p.toNat) (s.withIp (p + 1)) := by
  rw [fetchByte_withIp]
  split <;> rfl

theorem fetchWord_andThen (s : State) (p : Word) (k : Word → State → Fetched Instr) :
    (fetchWord .operandFetch (s.withIp p)).andThen k =
      if s.config.maxOffset < p.toNat + 1 then .stop (.outOfBounds p.toNat .word .operandFetch (s.withIp p))
      else k (wordOfBytes (s.mem.read p.toNat) (s.mem.read (p.toNat + 1))) (s.withIp (p + 2)) := by
  rw [fetchWord_withIp]
  split <;> rfl

theorem fetchRR_withIp (mk : Byte → Byte → Instr) (s : State) (p : Word) :
    fetchRR mk (s.withIp p) = operandFaultOr s [.byte, .byte] p
      (.done (mk (s.mem.read p.toNat) (s.mem.read (p + 1).toNat)) (s.withIp (p + 2))) := by
  simp only [fetchRR, fetchByte_andThen, operandFaultOr_byte, operandFaultOr_nil, BitVec.add_assoc]
  rfl

theorem fetchWR_withIp (mk : Word → Byte → Instr) (s : State) (p : Word) :
    fetchWR mk (s.withIp p) = operandFaultOr s [.word, .byte] p
      (.done (mk (wordOfBytes (s.mem.read p.toNat) (s.mem.read (p.toNat + 1))) (s.mem.read (p + 2).toNat))
        (s.withIp (p + 3))) := by
  simp only [fetchWR, fetchByte_andThen, fetchWord_andThen, operandFaultOr_byte, operandFaultOr_word,
    operandFaultOr_nil, BitVec.add_assoc]
  rfl

theorem fetchRW_withIp (mk : Byte → Word → Instr) (s : State) (p : Word) :
    fetchRW mk (s.withIp p) = operandFaultOr s [.byte, .word] p
      (.done (mk (s.mem.read p.toNat) (wordOfBytes (s.mem.read (p + 1).toNat) (s.mem.read ((p + 1).toNat + 1))))
        (s.withIp (p + 3))) := by
  simp only [fetchRW, fetchByte_andThen, fetchWord_andThen, operandFaultOr_byte, operandFaultOr_word,
    operandFaultOr_nil, BitVec.add_assoc]
  rfl

/-- The operand fetches read what the decoder makes of the bytes at the operands' addresses, and pass them. -/
theorem fetchOperands_withIp (op : Opcode) (s : State) (p : Word) :
    ∃ i, decodeOperands op (s.bytesAt (operandAddresses op.schema p)) = .ok (i, []) ∧
      fetchOperands op (s.withIp p) = operandFaultOr s op.schema p
        (.done i (s.withIp (p + BitVec.ofNat 16 (op.schema.map Width.bytes).sum))) := by
  cases op with
  | addRegToReg | andRegToReg | orRegToReg | movRegToReg => exact ⟨_, rfl, fetchRR_withIp _ s p⟩
  | movLiteralToReg | movMemToReg => exact ⟨_, rfl, fetchWR_withIp _ s p⟩
  | movRegToMem => exact ⟨_, rfl, fetchRW_withIp _ s p⟩
  | noOp | unknown => exact ⟨_, rfl, by simp [operandFaultOr_nil, Opcode.schema, fetchOperands]⟩

/-! The step, by where its fetches end. -/

/-- The state in which the execute phase of the instruction at IP runs (R74). -/
def State.pastFetches (s : State) : State := s.withIp (s.ip + BitVec.ofNat 16 s.opcodeAtIp.length)

theorem ip_past_operands (p : Word) (op : Opcode) :
    p + 1 + BitVec.ofNat 16 (op.schema.map Width.bytes).sum = p + BitVec.ofNat 16 op.length := by
  rw [Opcode.length, BitVec.ofNat_add, BitVec.add_assoc]
  rfl

/-- With the opcode byte in range, the instruction decoded from the bytes at IP runs, unless an operand faults. -/
theorem step_decodes {s : State} (h : s.ip.toNat ≤ s.config.maxOffset) :
    ∃ i, decode s.config.opc s.instrBytes = .ok (i, []) ∧ i.opcode = s.opcodeAtIp ∧
      step s = afterFetch (operandFaultOr s s.opcodeAtIp.schema (s.ip + 1) (.done i s.pastFetches)) := by
  obtain ⟨i, hdecode, hfetch⟩ := fetchOperands_withIp s.opcodeAtIp s (s.ip + 1)
  obtain ⟨hop, _⟩ := decodeOperands_ok hdecode
  rw [ip_past_operands] at hfetch
  exact ⟨i, (decode_cons _ _ _).trans hdecode, hop, by rw [step_of_opcode_in_range h, hfetch, State.pastFetches]⟩

theorem step_of_operand_out_of_range {s : State} {p : Word} {w : Width} (hop : s.ip.toNat ≤ s.config.maxOffset)
    (h : firstOutOfRange s.config.maxOffset s.opcodeAtIp.schema (s.ip + 1) = some (p, w)) :
    step s = .fault (.outOfBounds p.toNat w .operandFetch (s.withIp p)) := by
  obtain ⟨i, _, _, hstep⟩ := step_decodes hop
  simp only [hstep, operandFaultOr, h, afterFetch]

theorem step_of_operands_in_range {s : State} (hop : s.ip.toNat ≤ s.config.maxOffset)
    (h : firstOutOfRange s.config.maxOffset s.opcodeAtIp.schema (s.ip + 1) = none) :
    ∃ i, decode s.config.opc s.instrBytes = .ok (i, []) ∧ i.opcode = s.opcodeAtIp ∧
      step s = exec i s.pastFetches := by
  obtain ⟨i, hdecode, hopcode, hstep⟩ := step_decodes hop
  exact ⟨i, hdecode, hopcode, by simp only [hstep, operandFaultOr, h, afterFetch]⟩

/-- Everything a step can do: fault in a fetch, or run the instruction decoded from the bytes it consumes. -/
theorem step_cases (s : State) :
    step s = opcodeFault s ∨ (∃ p w, step s = operandFault s p w) ∨
    ∃ i, decode s.config.opc s.instrBytes = .ok (i, []) ∧ i.opcode = s.opcodeAtIp ∧ step s = exec i s.pastFetches := by
  rcases Nat.lt_or_ge s.config.maxOffset s.ip.toNat with hout | hop
  · exact .inl (opcodeFetchFaultChangesNothing s hout)
  cases hfirst : firstOutOfRange s.config.maxOffset s.opcodeAtIp.schema (s.ip + 1) with
  | some pw => exact .inr (.inl ⟨_, _, step_of_operand_out_of_range hop hfirst⟩)
  | none => exact .inr (.inr (step_of_operands_in_range hop hfirst))

/-- Settles O24: the two ends of the operand fetches. -/
theorem operandFetchFaultKeepsEarlierAdvances : Obligations.OperandFetchFaultKeepsEarlierAdvances := by
  refine fun s hop => ⟨fun p w h => step_of_operand_out_of_range hop h, fun h => ?_⟩
  obtain ⟨i, _, hopcode, hstep⟩ := step_of_operands_in_range hop h
  exact ⟨i, hopcode, hstep⟩

/-- No operand is out of range exactly when every byte it is fetched from exists (R34, R35). -/
theorem firstOutOfRange_eq_none (n : Nat) (ws : List Width) (p : Word) :
    firstOutOfRange n ws p = none ↔ ∀ a ∈ operandAddresses ws p, a ≤ n := by
  induction ws generalizing p with
  | nil => simp [firstOutOfRange, operandAddresses]
  | cons w ws ih =>
    cases w with
    | byte =>
      by_cases h : p.toNat ≤ n
      · simp [firstOutOfRange, operandAddresses, Width.bytes, ih, h, Nat.not_lt.mpr h]
      · simp [firstOutOfRange, operandAddresses, Width.bytes, h, Nat.lt_of_not_le h]
    | word =>
      by_cases h : p.toNat < n
      · simp [firstOutOfRange, operandAddresses, Width.bytes, ih, h, Nat.not_le.mpr h, Nat.le_of_lt h]
      · simp [firstOutOfRange, operandAddresses, Width.bytes, h, Nat.le_of_not_lt h]

/-- Settles O25: every fetch is in range, and a list of bytes decodes to one instruction. -/
theorem stepRunsTheDecodedInstruction : Obligations.StepRunsTheDecodedInstruction := by
  intro s i hrange hdecode
  obtain ⟨hip, hoperands⟩ := List.forall_mem_cons.mp hrange
  obtain ⟨j, hj, hopcode, hstep⟩ := step_of_operands_in_range hip ((firstOutOfRange_eq_none _ _ _).mpr hoperands)
  obtain rfl : i = j := by simpa [hdecode] using hj
  rw [hstep, State.pastFetches, hopcode]

/-- Settles O26: the first byte of the encoding decodes to the instruction's tag, so the bytes the step consumes are
the encoding, which decodes to the instruction (O1). -/
theorem stepRunsTheEncodedInstruction : Obligations.StepRunsTheEncodedInstruction := by
  intro s i ⟨hopc, _⟩ hi hrange hbytes
  have hhead : s.mem.read s.ip.toNat = s.config.opc.byteOf i.opcode := by
    rw [encode_eq_cons] at hbytes
    exact (List.cons.inj hbytes).1
  have hop : s.opcodeAtIp = i.opcode := by
    rw [State.opcodeAtIp, hhead, decodeOpcode_byteOf hopc ((Instr.wf_iff_opcode_wf _ i).mp hi)]
  have hdecode := decodeOfEncodeGivesTheInstruction s.config.opc i [] hopc hi
  rw [← hop] at hrange hbytes
  refine stepRunsTheDecodedInstruction s i hrange ?_
  rw [State.instrBytes, hbytes, ← hdecode, List.append_nil]

end Sys2Proof.Machine
end

section
/-! O27: the bytes of an instruction, placed at the addresses that the next step reads (log entry 17). -/

namespace Sys2Proof.Machine

theorem State.placeBytes_cons_of_in_range {s : State} {a : Nat} (h : a ≤ s.config.maxOffset) (as : List Nat)
    (b : Byte) (bs : List Byte) : s.placeBytes (a :: as) (b :: bs) = (s.withMem (s.mem.write a b)).placeBytes as bs := by
  simp only [State.placeBytes, State.storeByte_of_in_range h]

/-- Placing bytes is a list of stores, each of which writes its own cell or nothing. -/
theorem State.placeBytes_frame (s : State) (as : List Nat) (bs : List Byte) :
    (s.placeBytes as bs).regs = s.regs ∧ SameRest s (s.placeBytes as bs) ∧
    ∀ x, x ∉ as → (s.placeBytes as bs).mem.read x = s.mem.read x := by
  induction as generalizing s bs with
  | nil => exact ⟨rfl, ⟨rfl, rfl⟩, fun _ _ => rfl⟩
  | cons a as ih =>
    cases bs with
    | nil => exact ⟨rfl, ⟨rfl, rfl⟩, fun _ _ => rfl⟩
    | cons b bs =>
      simp only [State.placeBytes]
      rcases s.storeByte_cases a b with ⟨_, e⟩ | ⟨_, e⟩ <;> simp only [e]
      · obtain ⟨hregs, hrest, hread⟩ := ih (s.withMem (s.mem.write a b)) bs
        refine ⟨hregs, hrest, fun x hx => ?_⟩
        obtain ⟨hxa, hxas⟩ := List.ne_and_not_mem_of_not_mem_cons hx
        rw [hread x hxas, State.withMem_mem, Memory.read_write_ne _ hxa]
      · obtain ⟨hregs, hrest, hread⟩ := ih s bs
        exact ⟨hregs, hrest, fun x hx => hread x (List.not_mem_of_not_mem_cons hx)⟩

/-- Bytes placed at as many distinct cells that exist are the bytes there. -/
theorem State.bytesAt_placeBytes {s : State} {as : List Nat} {bs : List Byte} (hmem : s.mem.wf) (hnodup : as.Nodup)
    (hrange : ∀ a ∈ as, a ≤ s.config.maxOffset) (hlength : as.length = bs.length) (pad : List Byte) :
    (s.placeBytes as (bs ++ pad)).bytesAt as = bs := by
  induction as generalizing s bs with
  | nil => exact (List.eq_nil_of_length_eq_zero hlength.symm).symm
  | cons a as ih =>
    cases bs with
    | nil => cases hlength
    | cons b bs =>
      obtain ⟨ha, has⟩ := List.forall_mem_cons.mp hrange
      obtain ⟨hnotin, hnodup⟩ := List.nodup_cons.mp hnodup
      obtain ⟨_, _, hread⟩ := State.placeBytes_frame (s.withMem (s.mem.write a b)) as (bs ++ pad)
      have hhead := (hread a hnotin).trans (Memory.read_write_same hmem a b)
      have htail := ih (s := s.withMem (s.mem.write a b)) (Memory.write_wf hmem a b) hnodup has
        (Nat.succ.inj hlength)
      rw [List.cons_append, State.placeBytes_cons_of_in_range ha]
      exact congrArg₂ List.cons hhead htail

theorem operandAddresses_length (ws : List Width) (p : Word) :
    (operandAddresses ws p).length = (ws.map Width.bytes).sum := by
  induction ws generalizing p with
  | nil => rfl
  | cons w ws ih => cases w <;> simp [operandAddresses, Width.bytes, ih] <;> omega

theorem instrAddresses_length (op : Opcode) (ip : Word) : (instrAddresses op ip).length = op.length := by
  rw [instrAddresses, List.length_cons, operandAddresses_length, Opcode.length, Nat.add_comm]

/-- The at most four bytes of an instruction do not wrap onto each other. -/
theorem instrAddresses_nodup (op : Opcode) (ip : Word) : (instrAddresses op ip).Nodup := by
  simp only [instrAddresses]
  cases op with
  | addRegToReg | andRegToReg | orRegToReg | movRegToReg | movLiteralToReg | movMemToReg | movRegToMem =>
    simp [operandAddresses, Opcode.schema, BitVec.toNat_add]
    omega
  | noOp | unknown => exact List.nodup_singleton _

/-- Settles O27: the placed bytes lie at the addresses the fetch reads, so O26 applies to the state that holds them. -/
theorem placedInstructionRunsNext : Obligations.PlacedInstructionRunsNext := by
  intro s i pad ⟨hmem, _, hconfig⟩ hi hrange
  have ⟨hopc, _⟩ := hconfig
  have hop : decodeOpcode s.config.opc ((encode s.config.opc i ++ pad).headD 0) = i.opcode := by
    rw [encode_eq_cons]
    exact decodeOpcode_byteOf hopc ((Instr.wf_iff_opcode_wf _ i).mp hi)
  have hlength : (instrAddresses i.opcode s.ip).length = (encode s.config.opc i).length := by
    obtain ⟨hencoding, _⟩ := encodingLength i s.config.opc
    rw [instrAddresses_length, hencoding]
  have hplaced := State.bytesAt_placeBytes hmem (instrAddresses_nodup i.opcode s.ip) hrange hlength pad
  obtain ⟨hregs, hrest, hread⟩ :=
    s.placeBytes_frame (instrAddresses i.opcode s.ip) (encode s.config.opc i ++ pad)
  simp only [State.placeInstr, hop]
  generalize s.placeBytes _ _ = t at hplaced hregs hrest hread
  refine ⟨hregs, hrest, hread, ?_⟩
  have hip : t.ip = s.ip := congrArg RegFile.ip hregs
  obtain ⟨_, hcfg⟩ := hrest
  rw [← hip] at hrange hplaced ⊢
  rw [← hcfg] at hi hrange hplaced
  exact stepRunsTheEncodedInstruction t i (hcfg ▸ hconfig) hi hrange hplaced

end Sys2Proof.Machine
end

section
/-! O46 to O48: a completed step is the execute phase of the instruction decoded at IP on the state past its fetches,
and `exec_next_cases` says what that phase wrote (spec/40_fetch_and_step.md R72, R74). -/

namespace Sys2Proof.Machine

theorem step_next_decodes {s t : State} (h : step s = .next t) :
    ∃ i, decode s.config.opc s.instrBytes = .ok (i, []) ∧ i.opcode = s.opcodeAtIp ∧
      exec i s.pastFetches = .next t := by
  rcases step_cases s with e | ⟨_, _, e⟩ | ⟨i, hdecode, hopcode, e⟩ <;> rw [e] at h
  · cases h
  · cases h
  · exact ⟨i, hdecode, hopcode, h⟩

/-- Settles O46: an execute phase that changes IP is that of a move into a register, under `Write`. -/
theorem completedStepLeavesIpPastTheInstruction : Obligations.CompletedStepLeavesIpPastTheInstruction := by
  intro s t h hno
  obtain ⟨i, _, hopcode, hexec⟩ := step_next_decodes h
  by_contra hne
  obtain ⟨hwrite, d, id, _, _, hmove⟩ := exec_next_ip_ne hexec hne
  have hmem : s.opcodeAtIp ∈ [Opcode.movLiteralToReg, .movMemToReg, .movRegToReg] := by
    rw [← hopcode]
    rcases hmove with ⟨_, rfl⟩ | ⟨_, rfl⟩ | ⟨_, rfl⟩ <;> simp [Instr.opcode]
  rcases hno with hfault | hnot
  · cases hwrite.symm.trans hfault
  · exact hnot hmem

/-- Settles O47: the step's execute phase, and what each execute phase writes. -/
theorem oneExecutePhaseWrite : Obligations.OneExecutePhaseWrite := by
  refine ⟨fun s t h => ?step, fun i u t h => ?exec⟩
  case step =>
    obtain ⟨i, _, hopcode, hexec⟩ := step_next_decodes h
    exact ⟨i, hopcode, hexec⟩
  case exec =>
    have hc := exec_next_cases h
    cases i with
    | addRegToReg | andRegToReg | orRegToReg => exact hc
    | movLiteralToReg | movMemToReg | movRegToReg => obtain ⟨id, v, _, _, rfl⟩ := hc; exact ⟨_, v, rfl⟩
    | movRegToMem _ ad => obtain ⟨v, hrange, rfl⟩ := hc; exact ⟨v, State.store16_of_in_range hrange v⟩
    | noOp | unknownOpcode => exact hc

/-- Settles O48: the fetches change IP alone, and the execute phase makes its one write. -/
theorem completedStepFrame : Obligations.CompletedStepFrame := by
  intro s t h
  obtain ⟨i, hdecode, hopcode, hexec⟩ := step_next_decodes h
  have hfetched : ∀ r, r ≠ .ip → s.pastFetches.reg r = s.reg r := fun r => s.reg_withIp_ne _
  have hc := exec_next_cases hexec
  cases i with
  | addRegToReg | andRegToReg | orRegToReg =>
    obtain ⟨v, rfl⟩ := hc
    exact ⟨_, hdecode, hopcode, ⟨rfl, rfl⟩, fun _ => rfl, fun r hip hacc =>
      (State.reg_setReg_ne _ v hacc).trans (hfetched r hip)⟩
  | movLiteralToReg | movMemToReg | movRegToReg =>
    obtain ⟨id, v, hid, _, rfl⟩ := hc
    exact ⟨_, hdecode, hopcode, ⟨rfl, rfl⟩, fun _ => rfl, id, hid, fun r hip hd =>
      (State.reg_setReg_ne _ v hd).trans (hfetched r hip)⟩
  | movRegToMem _ ad =>
    obtain ⟨v, _, rfl⟩ := hc
    exact ⟨_, hdecode, hopcode, ⟨rfl, rfl⟩, fun a hhi hlo => Memory.read_write16_ne s.mem hhi hlo v, hfetched⟩
  | noOp | unknownOpcode =>
    obtain rfl : t = s.pastFetches := hc
    exact ⟨_, hdecode, hopcode, ⟨rfl, rfl⟩, fun _ => rfl, hfetched⟩

end Sys2Proof.Machine
end

section
/-! O44: when the checks of the execute phase raise `BadRegister` (spec/40_fetch_and_step.md R73). -/

namespace Sys2Proof.Machine

theorem readableSource_of_le_seven (c : Config) {r : Byte} (h : r.toNat ≤ 7) : ∃ reg, ReadableSource c r reg :=
  ⟨_, _, operandId_of_le_seven c h, rfl⟩

/-- Settles O44: each meaning begins with the checks of its register operands, in operand order. -/
theorem badRegisterIsRaisedByTheChecks : Obligations.BadRegisterIsRaisedByTheChecks := by
  refine fun s a b w => ⟨fun hpolicy ha => ?first, fun hpolicy ha hb => ?second,
    fun hpolicy id hid hip => ⟨?move, ?moveReg⟩⟩
  case first =>
    have hnone : operandId s.config a = none := operandId_of_fault ha hpolicy
    have hsource : ∀ k, withSource s a k = .fault (.badRegister a.toNat s) := withSource_of_no_id hnone
    have hdest : ∀ k, withDest s a k = .fault (.badRegister a.toNat s) := withDest_of_no_id hnone
    simp only [List.forall_mem_cons]
    exact ⟨hsource _, hsource _, hsource _, hsource _, hdest _, hdest _, hsource _, by simp⟩
  case second =>
    obtain ⟨reg, hreg⟩ := readableSource_of_le_seven s.config ha
    have hnone : operandId s.config b = none := operandId_of_fault hb hpolicy
    have hsource : ∀ k : Reg → Reg → Result,
        withSource s a (fun x => withSource s b (k x)) = .fault (.badRegister b.toNat s) := fun k =>
      (withSource_of_readable hreg _).trans (withSource_of_no_id hnone _)
    have hdest : withSource s a (fun x => withDest s b fun d => .next (s.setReg d (s.reg x))) =
        .fault (.badRegister b.toNat s) :=
      (withSource_of_readable hreg _).trans (withDest_of_no_id hnone _)
    simp only [List.forall_mem_cons]
    exact ⟨hsource _, hsource _, hsource _, hdest, by simp⟩
  case move =>
    simp only [List.forall_mem_cons]
    exact ⟨withDest_of_faulting_ip hid hip hpolicy _, withDest_of_faulting_ip hid hip hpolicy _, by simp⟩
  case moveReg => exact fun r hr => (withSource_of_readable hr _).trans (withDest_of_faulting_ip hid hip hpolicy _)

end Sys2Proof.Machine
end

section
/-! O50: no meaning is refused, and so no step (spec/40_fetch_and_step.md R75). -/

namespace Sys2Proof.Machine

/-- The answer is a next state or a fault. -/
def Result.OkOrFault (x : Result) : Prop := (∃ t, x = .next t) ∨ ∃ f, x = .fault f

theorem Result.OkOrFault.next (t : State) : Result.OkOrFault (.next t) := .inl ⟨t, rfl⟩

theorem Result.OkOrFault.fault (f : Fault) : Result.OkOrFault (.fault f) := .inr ⟨f, rfl⟩

theorem withSource_okOrFault {k : Reg → Result} (hk : ∀ r, Result.OkOrFault (k r)) (s : State) (operand : Byte) :
    Result.OkOrFault (withSource s operand k) := by
  rcases withSource_cases s operand k with ⟨_, _, e⟩ | ⟨_, e⟩ <;> rw [e]
  · exact hk _
  · exact .fault _

theorem withDest_okOrFault {k : Reg → Result} (hk : ∀ r, Result.OkOrFault (k r)) (s : State) (operand : Byte) :
    Result.OkOrFault (withDest s operand k) := by
  rcases withDest_cases s operand k with ⟨_, _, _, e⟩ | ⟨_, _, _, e⟩ | ⟨_, e⟩ <;> rw [e]
  · exact hk _
  · exact .fault _
  · exact .fault _

theorem withLoad16_okOrFault {k : Word → Result} (hk : ∀ v, Result.OkOrFault (k v)) (s : State) (ad : Word) :
    Result.OkOrFault (withLoad16 s ad k) := by
  rcases withLoad16_cases s ad k with ⟨_, e⟩ | ⟨_, e⟩ <;> rw [e]
  · exact hk _
  · exact .fault _

theorem finishStore16_okOrFault (s : State) (ad v : Word) : Result.OkOrFault (finishStore16 s ad v) := by
  rcases finishStore16_cases s ad v with ⟨_, e⟩ | ⟨_, e⟩ <;> rw [e]
  · exact .next _
  · exact .fault _

theorem exec_okOrFault (i : Instr) (s : State) : Result.OkOrFault (exec i s) := by
  cases i with
  | addRegToReg a b | andRegToReg a b | orRegToReg a b =>
    exact withSource_okOrFault (fun _ => withSource_okOrFault (fun _ => .next _) s b) s a
  | movLiteralToReg w d => exact withDest_okOrFault (fun _ => .next _) s d
  | movMemToReg ad d => exact withDest_okOrFault (fun _ => withLoad16_okOrFault (fun _ => .next _) s ad) s d
  | movRegToMem a ad => exact withSource_okOrFault (fun _ => finishStore16_okOrFault s ad _) s a
  | movRegToReg a d => exact withSource_okOrFault (fun _ => withDest_okOrFault (fun _ => .next _) s d) s a
  | noOp | unknownOpcode => exact .next s

/-- Settles O50: a step ends in the fault of a fetch or in an execute phase. -/
theorem stepEndsInOkOrFault : Obligations.StepEndsInOkOrFault := by
  intro s
  rcases step_cases s with e | ⟨_, _, e⟩ | ⟨i, _, _, e⟩ <;> rw [e]
  · exact .inr ⟨_, rfl⟩
  · exact .inr ⟨_, rfl⟩
  · exact exec_okOrFault i _

end Sys2Proof.Machine
end

section
/-! O54: a fault ends a run, and one of the opcode fetch repeats (spec/40_fetch_and_step.md R70, R82). -/

namespace Sys2Proof.Machine

theorem core_run_add_of_fault {n : Nat} {s : State} {f : Fault} (h : Sys2Proof.core.run n s = .fault f) (k : Nat) :
    Sys2Proof.core.run (n + k) s = .fault f := by
  induction n generalizing s with
  | zero => cases h
  | succ n ih =>
    rw [core_run_succ] at h
    rw [Nat.add_right_comm, core_run_succ]
    cases hstep : step s with
    | next t => rw [hstep] at h; exact ih h
    | fault g => rw [hstep] at h; exact h
    | refused r => rw [hstep] at h; cases h

theorem exec_fault_phase_ne {i : Instr} {u : State} {f : Fault} (h : exec i u = .fault f) :
    f.phase ≠ .opcodeFetch := by
  rcases exec_fault_cases h with ⟨_, rfl, _⟩ | ⟨_, _, rfl | rfl⟩ <;> simp [Fault.phase]

/-- A fault in the phase `OpcodeFetch` is raised by the opcode fetch alone, which changes nothing (R70). -/
theorem step_fault_opcodeFetch {s : State} {f : Fault} (h : step s = .fault f) (hphase : f.phase = .opcodeFetch) :
    f.after = s := by
  rcases step_cases s with e | ⟨_, _, e⟩ | ⟨i, _, _, e⟩ <;> rw [e] at h
  · cases h; rfl
  · cases h; cases hphase
  · exact absurd hphase (exec_fault_phase_ne h)

/-- What the step port answers as a fault is the fault of the step, in the state it leaves. -/
theorem stepPort_fault {s t : State} {kd : FaultKind} {a : Nat} {w : Width} {ph : Phase}
    (h : stepPort s = (.fault kd a w ph, t)) : ∃ f, step s = .fault f ∧ f.phase = ph ∧ f.after = t := by
  rw [stepPort] at h
  cases hstep : step s with
  | fault f => rw [hstep] at h; cases h; exact ⟨f, rfl, rfl, rfl⟩
  | next u => rw [hstep] at h; cases h
  | refused r => rw [hstep] at h; cases h

/-- Settles O54: the run by induction on its length; and the state left by an opcode-fetch fault is the state itself. -/
theorem faultIsTheStickyOutcomeOfARun : Obligations.FaultIsTheStickyOutcomeOfARun := by
  refine ⟨fun n k s f h => core_run_add_of_fault h k, fun s t kd a w h => ?_⟩
  obtain ⟨f, hstep, hphase, rfl⟩ := stepPort_fault h
  have hsame := step_fault_opcodeFetch hstep hphase
  rw [hsame] at h ⊢
  exact ⟨rfl, h⟩

end Sys2Proof.Machine
end

section
/-! O57: what a snapshot shows (spec/40_fetch_and_step.md R79), and that no other request observes its window (R12). -/

namespace Sys2Proof.Machine

theorem State.getElem_rfSnapshot (s : State) (id : RegId) : s.rfSnapshot[id] = s.rfRead id := by
  simp [State.rfSnapshot, State.rfRead, regOf]

theorem State.windowByte_of_in_range {s : State} {b : Int} (h : 0 ≤ b ∧ b ≤ s.config.maxOffset) :
    s.windowByte b = some (s.mem.read b.toNat) :=
  if_pos h

theorem State.windowByte_of_absent {s : State} {b : Int} (h : b < 0 ∨ s.config.maxOffset < b) :
    s.windowByte b = none :=
  if_neg (by omega)

theorem unobserved_withWindow (wb wa : Nat) : Unobserved fun s => s.withWindow wb wa :=
  ⟨fun _ => rfl, fun _ => rfl, fun _ => rfl, fun _ => rfl, fun _ => rfl, fun _ => rfl, fun _ => rfl,
    fun _ _ _ => rfl, fun _ _ => rfl⟩

/-- A store that commutes with an edit of the state is answered alike, in the state edited alike. -/
theorem answerStore_map (g : State → State) (s : State) (r : Except AccessFault State) :
    answerStore (g s) (r.map g) = ((answerStore s r).1, g (answerStore s r).2) := by
  cases r <;> rfl

theorem State.storeByte_withWindow (s : State) (wb wa a : Nat) (b : Byte) :
    (s.withWindow wb wa).storeByte a b = (s.storeByte a b).map (·.withWindow wb wa) := by
  rcases s.storeByte_cases a b with ⟨h, e⟩ | ⟨h, e⟩ <;> rw [e]
  · exact State.storeByte_of_in_range (s := s.withWindow wb wa) h b
  · exact State.storeByte_of_out_of_range (s := s.withWindow wb wa) h b

theorem State.pushByte_withWindow (s : State) (wb wa : Nat) (b : Byte) :
    (s.withWindow wb wa).pushByte b = (s.pushByte b).map (·.withWindow wb wa) := by
  rcases s.pushByte_cases b with ⟨h, e⟩ | ⟨h, e⟩ <;> rw [e]
  · exact State.pushByte_of_in_range (s := s.withWindow wb wa) h b
  · exact State.pushByte_of_out_of_range (s := s.withWindow wb wa) h b

theorem State.push16_withWindow (s : State) (wb wa : Nat) (w : Word) :
    (s.withWindow wb wa).push16 w = (s.push16 w).map (·.withWindow wb wa) := by
  rcases s.push16_cases w with ⟨h, e⟩ | ⟨h, e⟩ <;> rw [e]
  · exact State.push16_of_in_range (s := s.withWindow wb wa) h w
  · exact State.push16_of_out_of_range (s := s.withWindow wb wa) h w

theorem serve_withWindow {r : Request} (hr : r ≠ .snapshot) (s : State) (wb wa : Nat) :
    serve r (s.withWindow wb wa) = ((serve r s).1, (serve r s).2.withWindow wb wa) := by
  have hwindow := unobserved_withWindow wb wa
  have hanswer := answerStore_map (·.withWindow wb wa) s
  cases r with
  | step => exact hwindow.stepPort_comm s
  | loadByte a =>
    simp only [serve, hwindow.loadByte_eq s a]
    cases s.loadByte a <;> rfl
  | load16 a =>
    simp only [serve, hwindow.load16_eq s a]
    cases s.load16 a <;> rfl
  | storeByte a b => simp only [serve, s.storeByte_withWindow, hanswer]
  | store16 a w => simp only [serve, hwindow.store16_comm s a w, hanswer]
  | pushByte b => simp only [serve, s.pushByte_withWindow, hanswer]
  | push16 w => simp only [serve, s.push16_withWindow, hanswer]
  | snapshot => exact absurd rfl hr

/-- Settles O57: the window lists an address after the other with its byte, and is a part of the state that nothing
else observes. -/
theorem snapshotShowsTheWindowAndChangesNothing : Obligations.SnapshotShowsTheWindowAndChangesNothing := by
  refine ⟨fun s => ⟨s.snapshot, rfl, s.getElem_rfSnapshot, ?length, fun k hk => ?entry⟩,
    fun r s wb wa hr => serve_withWindow hr s wb wa⟩
  case length => simp [State.snapshot, State.windowAddresses]
  case entry =>
    have hentry : (s.snapshot.window[k]).2 = s.windowByte (s.snapshot.window[k]).1 := by
      simp [State.snapshot]
    rw [hentry]
    exact ⟨by simp [State.snapshot, State.windowAddresses], State.windowByte_of_in_range,
      State.windowByte_of_absent⟩

end Sys2Proof.Machine
end

section
/-! O28 to O30 and O36 to O38: the three arithmetic and bitwise instructions have one shape (spec/41_alu.md R83), so
each statement is a result put into a fact about the shape: its execute phase, and its step with the fetches of
format RR. -/

namespace Sys2Proof.Machine

/-- The sum that the model truncates is the one that R84 writes modulo 2^16. -/
theorem addResult_eq_sum_mod : addResult = fun x y => BitVec.ofNat 16 ((x.toNat + y.toNat) % 2 ^ 16) := by
  funext x y
  apply BitVec.eq_of_toNat_eq
  simp [addResult]

/-! The execute phase, with both operands naming registers and with any operands. -/

theorem aluToAcc_of_readable {s : State} {a b : Byte} {ra rb : Reg} (ha : ReadableSource s.config a ra)
    (hb : ReadableSource s.config b rb) (f : Word → Word → Word) :
    aluToAcc f a b s = .next (s.setReg .acc (f (s.reg ra) (s.reg rb))) :=
  (withSource_of_readable ha _).trans (withSource_of_readable hb _)

/-- The meaning checks one operand after the other, and the rule lists what the two checks can answer. -/
theorem aluToAcc_eq_aluRule (f : Word → Word → Word) (a b : Byte) (u : State) :
    aluToAcc f a b u = aluRule f a b u := by
  rw [aluToAcc, aluRule]
  cases ha : operandId u.config a with
  | none => exact withSource_of_no_id ha _
  | some i =>
    rw [withSource_of_readable ⟨i, ha, rfl⟩]
    cases hb : operandId u.config b with
    | none => exact withSource_of_no_id hb _
    | some j => exact withSource_of_readable ⟨j, hb, rfl⟩ _

/-! The step, its opcode known from the byte at IP. -/

theorem State.opcodeAtIp_eq {s : State} (h : s.config.wf) {op : Opcode} (hop : op.wf s.config.opc)
    (hbyte : s.mem.read s.ip.toNat = s.config.opc.byteOf op) : s.opcodeAtIp = op := by
  obtain ⟨hopc, _⟩ := h
  rw [State.opcodeAtIp, hbyte, decodeOpcode_byteOf hopc hop]

/-- An opcode whose operands are two bytes takes the three fetches of format RR, then executes. -/
theorem step_eq_stepRR {s : State} {mk : Byte → Byte → Instr} (h : fetchOperands s.opcodeAtIp = fetchRR mk) :
    step s = stepRR s fun a b u => exec (mk a b) u := by
  rw [stepRR]
  split
  case isTrue hout => exact opcodeFetchFaultChangesNothing s hout
  case isFalse hin =>
    rw [step_of_opcode_in_range (Nat.le_of_not_lt hin), h, fetchRR_withIp, operandFaultOr_byte, operandFaultOr_byte,
      operandFaultOr_nil, BitVec.add_assoc, BitVec.add_assoc]
    split
    · rfl
    · exact apply_ite afterFetch _ _ _

/-- A step on an opcode of format RR whose meaning has the arithmetic shape is the one that R83 gives. -/
theorem step_eq_stepRR_aluRule {s : State} {op : Opcode} {mk : Byte → Byte → Instr} {f : Word → Word → Word}
    (hop : s.opcodeAtIp = op) (hfetch : fetchOperands op = fetchRR mk)
    (hexec : ∀ a b u, exec (mk a b) u = aluToAcc f a b u) : step s = stepRR s (aluRule f) := by
  rw [step_eq_stepRR (hop ▸ hfetch)]
  simp only [hexec, aluToAcc_eq_aluRule]

/-! The statements. -/

/-- Settles O36: the shape with the sum. -/
theorem addStepFollowsItsRule : Obligations.AddStepFollowsItsRule := by
  intro s hwf hbyte
  have hop : s.opcodeAtIp = .addRegToReg := State.opcodeAtIp_eq hwf trivial hbyte
  rw [← addResult_eq_sum_mod]
  exact step_eq_stepRR_aluRule hop rfl fun _ _ _ => rfl

/-- Settles O37: the shape with AND. -/
theorem andStepFollowsItsRule : Obligations.AndStepFollowsItsRule := by
  intro s hwf hbyte
  have hop : s.opcodeAtIp = .andRegToReg := State.opcodeAtIp_eq hwf trivial hbyte
  exact step_eq_stepRR_aluRule hop rfl fun _ _ _ => rfl

/-- Settles O38: the shape with OR. -/
theorem orStepFollowsItsRule : Obligations.OrStepFollowsItsRule := by
  intro s hwf hbyte
  have hop : s.opcodeAtIp = .orRegToReg := State.opcodeAtIp_eq hwf trivial hbyte
  exact step_eq_stepRR_aluRule hop rfl fun _ _ _ => rfl

/-- Settles O28: both checks pass, and ACC gets the sum. -/
theorem addCompletesIntoAcc : Obligations.AddCompletesIntoAcc := by
  intro s a b ra rb ha hb
  have hexec : exec (.addRegToReg a b) s = .next (s.setReg .acc (addResult (s.reg ra) (s.reg rb))) :=
    aluToAcc_of_readable ha hb addResult
  rw [hexec, addResult_eq_sum_mod]
  rfl

/-- Settles O29: both checks pass, and ACC gets the bitwise AND. -/
theorem andCompletesIntoAcc : Obligations.AndCompletesIntoAcc := fun _ _ _ _ _ ha hb =>
  aluToAcc_of_readable ha hb andResult

/-- Settles O30: both checks pass, and ACC gets the bitwise OR. -/
theorem orCompletesIntoAcc : Obligations.OrCompletesIntoAcc := fun _ _ _ _ _ ha hb =>
  aluToAcc_of_readable ha hb orResult

end Sys2Proof.Machine
end

section
/-! O31 to O34 and O39 to O42: the four moves (spec/42_mov.md R88 to R92). A completed move into a register is one
register write and a store is one `Memory.write16`; a whole step is the fetches of its format, then each check and each
data access as the condition that its rule writes. -/

namespace Sys2Proof.Machine

/-! What the one write of a move leaves. -/

/-- A register write, with its frame. -/
theorem State.setReg_frame (s : State) (d : Reg) (v : Word) :
    (s.setReg d v).reg d = v ∧ SameRegsBut d s (s.setReg d v) ∧ SameBytes s (s.setReg d v) ∧
      SameRest s (s.setReg d v) :=
  ⟨s.reg_setReg_same d v, fun _ hr => s.reg_setReg_ne v hr, fun _ => rfl, rfl, rfl⟩

/-- `rf_write` of a word needs no reduction (R19). -/
theorem State.rfWrite_toNat (s : State) (id : RegId) (w : Word) :
    s.rfWrite id w.toNat = s.setReg (regOf s.config id) w := by
  rw [State.rfWrite, BitVec.ofNat_toNat, BitVec.setWidth_eq]

/-! The destination check and the two data accesses, as the rules write them. -/

/-- A destination check is the one of R73, when the continuations agree on the register that an id names. -/
theorem withDest_eq_destRule {u : State} {k : Reg → Result} {k' : RegId → Result}
    (hk : ∀ id, k (regOf u.config id) = k' id) (d : Byte) : withDest u d k = destRule d u k' := by
  rw [destRule]
  rcases withDest_cases u d k with ⟨id, hid, hallowed, e⟩ | ⟨id, hid, hip, e⟩ | ⟨hnone, e⟩ <;> rw [e]
  · simp only [hid, if_neg hallowed, hk]
  · simp only [hid, if_pos hip]
  · simp only [hnone]

theorem withLoad16_eq_ite (u : State) (ad : Word) (k : Word → Result) :
    withLoad16 u ad k =
      if u.config.maxOffset < ad.toNat + 1 then .fault (.outOfBounds ad.toNat .word .dataLoad u)
      else k (wordOfBytes (u.mem.read ad.toNat) (u.mem.read (ad.toNat + 1))) := by
  rcases withLoad16_cases u ad k with ⟨hin, e⟩ | ⟨hout, e⟩
  · rw [e, if_neg (Nat.not_lt.mpr hin)]
  · rw [e, if_pos hout]

theorem finishStore16_eq_ite (u : State) (ad v : Word) :
    finishStore16 u ad v =
      if u.config.maxOffset < ad.toNat + 1 then .fault (.outOfBounds ad.toNat .word .dataStore u)
      else .next (u.withMem (u.mem.write16 ad.toNat v)) := by
  rcases finishStore16_cases u ad v with ⟨hin, e⟩ | ⟨hout, e⟩
  · rw [e, if_neg (Nat.not_lt.mpr hin), Memory.write16]
  · rw [e, if_pos hout]

/-! The steps of formats WR and RW, as `step_eq_stepRR` for format RR. -/

/-- A step is its opcode fetch, then the fetches of the operands and what follows them. -/
theorem step_eq_opcodeFetch (s : State) :
    step s = if s.config.maxOffset < s.ip.toNat then opcodeFault s
      else afterFetch (fetchOperands s.opcodeAtIp (s.withIp (s.ip + 1))) := by
  split
  case isTrue hout => exact opcodeFetchFaultChangesNothing s hout
  case isFalse hin => exact step_of_opcode_in_range (Nat.le_of_not_lt hin)

theorem afterFetch_operandFaultOr_byte (s : State) (ws : List Width) (p : Word) (x : Fetched Instr) :
    afterFetch (operandFaultOr s (.byte :: ws) p x) =
      if s.config.maxOffset < p.toNat then operandFault s p .byte
      else afterFetch (operandFaultOr s ws (p + 1) x) := by
  rw [operandFaultOr_byte, apply_ite afterFetch, afterFetch, operandFault]

theorem afterFetch_operandFaultOr_word (s : State) (ws : List Width) (p : Word) (x : Fetched Instr) :
    afterFetch (operandFaultOr s (.word :: ws) p x) =
      if s.config.maxOffset < p.toNat + 1 then operandFault s p .word
      else afterFetch (operandFaultOr s ws (p + 2) x) := by
  rw [operandFaultOr_word, apply_ite afterFetch, afterFetch, operandFault]

/-- An opcode whose operands are a word and a byte takes the fetches of format WR, then executes. -/
theorem step_eq_stepWR {s : State} {mk : Word → Byte → Instr} (h : fetchOperands s.opcodeAtIp = fetchWR mk) :
    step s = stepWR s fun w d u => exec (mk w d) u := by
  rw [step_eq_opcodeFetch, h, fetchWR_withIp, afterFetch_operandFaultOr_word, afterFetch_operandFaultOr_byte,
    operandFaultOr_nil, afterFetch, BitVec.add_assoc, BitVec.add_assoc]
  rfl

/-- An opcode whose operands are a byte and a word takes the fetches of format RW, then executes. -/
theorem step_eq_stepRW {s : State} {mk : Byte → Word → Instr} (h : fetchOperands s.opcodeAtIp = fetchRW mk) :
    step s = stepRW s fun r w u => exec (mk r w) u := by
  rw [step_eq_opcodeFetch, h, fetchRW_withIp, afterFetch_operandFaultOr_byte, afterFetch_operandFaultOr_word,
    operandFaultOr_nil, afterFetch, BitVec.add_assoc, BitVec.add_assoc]
  rfl

/-! The statements. -/

/-- Settles O33: the store is in range, and leaves one 16-bit write of the register. -/
theorem movToMemCompletes : Obligations.MovToMemCompletes := by
  intro s ad operand r hwf hr hrange
  have hstore : finishStore16 s ad (s.reg r) = .next (s.withMem (s.mem.write16 ad.toNat (s.reg r))) :=
    (finishStore16_eq_ite s ad (s.reg r)).trans (if_neg (Nat.not_lt.mpr hrange))
  exact ⟨_, (withSource_of_readable hr _).trans hstore, Memory.read_write16_hi hwf _ _,
    Memory.read_write16_lo hwf _ _, fun _ hhi hlo => Memory.read_write16_ne _ hhi hlo _, rfl, rfl, rfl⟩

/-- Settles O39: the fetches of format WR, then the destination check. -/
theorem movLiteralStepFollowsItsRule : Obligations.MovLiteralStepFollowsItsRule := by
  intro s hwf hbyte
  have hop : s.opcodeAtIp = .movLiteralToReg := State.opcodeAtIp_eq hwf trivial hbyte
  rw [step_eq_stepWR (mk := .movLiteralToReg) (by rw [hop]; rfl)]
  refine congrArg (stepWR s) (funext₃ fun w d u => withDest_eq_destRule (fun id => ?_) d)
  rw [State.rfWrite_toNat]

/-- Settles O40: the fetches of format WR, then the destination check, then the load. -/
theorem movMemStepFollowsItsRule : Obligations.MovMemStepFollowsItsRule := by
  intro s hwf hbyte
  have hop : s.opcodeAtIp = .movMemToReg := State.opcodeAtIp_eq hwf trivial hbyte
  rw [step_eq_stepWR (mk := .movMemToReg) (by rw [hop]; rfl)]
  refine congrArg (stepWR s) (funext₃ fun ad d u => withDest_eq_destRule (fun id => ?_) d)
  rw [withLoad16_eq_ite, ← toNat_wordOfBytes, State.rfWrite_toNat]

/-- Settles O41: the fetches of format RW, then the source check, then the store. -/
theorem movToMemStepFollowsItsRule : Obligations.MovToMemStepFollowsItsRule := by
  intro s hwf hbyte
  have hop : s.opcodeAtIp = .movRegToMem := State.opcodeAtIp_eq hwf trivial hbyte
  rw [step_eq_stepRW (mk := .movRegToMem) (by rw [hop]; rfl)]
  refine congrArg (stepRW s) (funext₃ fun r ad u => ?_)
  cases hid : operandId u.config r with
  | none => exact withSource_of_no_id hid _
  | some id => exact (withSource_of_readable ⟨id, hid, rfl⟩ _).trans (finishStore16_eq_ite u ad _)

/-- Settles O42: the fetches of format RR, then the source check, then the destination check. -/
theorem movRegStepFollowsItsRule : Obligations.MovRegStepFollowsItsRule := by
  intro s hwf hbyte
  have hop : s.opcodeAtIp = .movRegToReg := State.opcodeAtIp_eq hwf trivial hbyte
  rw [step_eq_stepRR (mk := .movRegToReg) (by rw [hop]; rfl)]
  refine congrArg (stepRR s) (funext₃ fun a b u => ?_)
  cases hid : operandId u.config a with
  | none => exact withSource_of_no_id hid _
  | some i =>
    refine (withSource_of_readable ⟨i, hid, rfl⟩ _).trans (withDest_eq_destRule (fun id => ?_) b)
    rw [State.rfWrite_toNat, State.rfRead]

/-- Settles O31: the check passes, and the one write is that of the literal. -/
theorem movLiteralCompletes : Obligations.MovLiteralCompletes := fun s w _ d hd =>
  ⟨_, withDest_of_writable hd _, s.setReg_frame d w⟩

/-- Settles O32: the check passes, the load is in range, and the one write is that of the word loaded. -/
theorem movMemCompletes : Obligations.MovMemCompletes := by
  intro s ad operand d hd hrange
  obtain ⟨hvalue, hframe⟩ := s.setReg_frame d (wordOfBytes (s.mem.read ad.toNat) (s.mem.read (ad.toNat + 1)))
  refine ⟨_, (withDest_of_writable hd _).trans (withLoad16_of_in_range hrange _), ?_, hframe⟩
  rw [hvalue, toNat_wordOfBytes]

/-- Settles O34: both checks pass, and the one write is that of the source's value. -/
theorem movRegCompletes : Obligations.MovRegCompletes := fun s _ _ r d hr hd =>
  ⟨_, (withSource_of_readable hr _).trans (withDest_of_writable hd _), s.setReg_frame d (s.reg r)⟩

end Sys2Proof.Machine
end

section
/-! O35 and O43: an opcode byte outside the image of `OPC` has no operands and no effect, so its step is the opcode fetch
alone (spec/43_no_op.md R95, R96). -/

namespace Sys2Proof.Machine

/-- Settles O35: both meanings end in the state they are given. -/
theorem noOpAndUnknownComplete : Obligations.NoOpAndUnknownComplete := fun _ _ => ⟨rfl, rfl⟩

/-- Past an opcode byte outside the image of `OPC` nothing is fetched and nothing changes. -/
theorem afterFetch_fetchOperands_of_not_mem {c : Opc} {b : Byte} (h : b ∉ c.effectBytes) (u : State) :
    afterFetch (fetchOperands (decodeOpcode c b) u) = .next u := by
  obtain ⟨hnoOp, hunknown⟩ := noOpAndUnknownComplete u b
  rcases decodeOpcode_of_not_mem h with hop | hop <;> rw [hop]
  · exact hnoOp
  · exact hunknown

/-- Settles O43: what is left of the step is its opcode fetch. -/
theorem noOpStepFollowsItsRule : Obligations.NoOpStepFollowsItsRule := by
  intro s hbyte
  rw [step_eq_opcodeFetch, State.opcodeAtIp, afterFetch_fetchOperands_of_not_mem hbyte]

end Sys2Proof.Machine
end

section
/-! O58, O49, O51 and O60: the three places a fault can arise in (spec/60_exceptions.md R98 to R104), told once by
`step_fault_cases`; what each records and leaves, and when none can arise (R101). -/

namespace Sys2Proof.Machine

/-- What the first operand out of range tells: it is fetched past at most the operands before it, and from an address
that fails the bounds check. -/
theorem firstOutOfRange_eq_some {n : Nat} {ws : List Width} {p q : Word} {w : Width}
    (h : firstOutOfRange n ws p = some (q, w)) :
    (∃ k, k ≤ (ws.map Width.bytes).sum ∧ q = p + BitVec.ofNat 16 k) ∧ n < q.toNat + w.bytes - 1 := by
  induction ws generalizing p with
  | nil => cases h
  | cons v ws ih =>
    rw [firstOutOfRange] at h
    split at h
    next hout => cases h; exact ⟨⟨0, Nat.zero_le _, by simp⟩, hout⟩
    next =>
      obtain ⟨⟨k, hk, rfl⟩, hout⟩ := ih h
      refine ⟨⟨v.bytes + k, ?_, by rw [BitVec.ofNat_add, BitVec.add_assoc]⟩, hout⟩
      simpa using hk

/-- Everything a faulting step can be: its opcode fetch, its first operand fetch out of range, or its execute phase. -/
theorem step_fault_cases {s : State} {f : Fault} (h : step s = .fault f) :
    (s.config.maxOffset < s.ip.toNat ∧ f = .outOfBounds s.ip.toNat .byte .opcodeFetch s) ∨
    (∃ p w, firstOutOfRange s.config.maxOffset s.opcodeAtIp.schema (s.ip + 1) = some (p, w) ∧
      f = .outOfBounds p.toNat w .operandFetch (s.withIp p)) ∨
    ∃ i, exec i s.pastFetches = .fault f := by
  rcases Nat.lt_or_ge s.config.maxOffset s.ip.toNat with hout | hop
  · rw [opcodeFetchFaultChangesNothing s hout] at h
    cases h
    exact .inl ⟨hout, rfl⟩
  cases hfirst : firstOutOfRange s.config.maxOffset s.opcodeAtIp.schema (s.ip + 1) with
  | some pw =>
    rw [step_of_operand_out_of_range hop hfirst] at h
    cases h
    exact .inr (.inl ⟨_, _, rfl, rfl⟩)
  | none =>
    obtain ⟨i, _, _, hstep⟩ := step_of_operands_in_range hop hfirst
    exact .inr (.inr ⟨i, hstep.symm.trans h⟩)

/-! The two kinds. -/

theorem exec_fault_badRegister {i : Instr} {u : State} {f : Fault} (h : exec i u = .fault f)
    (hkind : f.kind = .badRegister) :
    (∃ r ∈ regOperands i, operandId u.config r = none) ∨ u.config.ipDestPolicy = .fault := by
  rcases exec_fault_cases h with ⟨_, _, hcheck⟩ | ⟨_, _, rfl | rfl⟩
  · exact hcheck
  · cases hkind
  · cases hkind

/-- Only an execute phase raises `BadRegister`, and only under one of the two `Fault` policies (R98). -/
theorem step_fault_badRegister {s : State} {f : Fault} (h : step s = .fault f) (hkind : f.kind = .badRegister) :
    s.config.regIdPolicy = .fault ∨ s.config.ipDestPolicy = .fault := by
  rcases step_fault_cases h with ⟨_, rfl⟩ | ⟨_, _, _, rfl⟩ | ⟨i, hexec⟩
  · cases hkind
  · cases hkind
  rcases exec_fault_badRegister hexec hkind with ⟨_, _, hnone⟩ | hpolicy
  · exact .inl (operandId_eq_none hnone).1
  · exact .inr hpolicy

/-- `OutOfBounds` is raised for a 16-bit address, and no access is wider than two bytes, so `MAX_OFFSET` is below the
last cell that a program can reach (R33, R34). -/
theorem step_fault_outOfBounds {s : State} {f : Fault} (h : step s = .fault f) (hkind : f.kind = .outOfBounds) :
    s.config.maxOffset < 0x10000 := by
  rcases step_fault_cases h with ⟨hout, _⟩ | ⟨p, w, hfirst, _⟩ | ⟨i, hexec⟩
  · omega
  · have hout := (firstOutOfRange_eq_some hfirst).2
    have hwidth : w.bytes ≤ 2 := by cases w <;> decide
    omega
  · rcases exec_fault_cases hexec with ⟨_, rfl, _⟩ | ⟨ad, hout, _⟩
    · cases hkind
    · have hout : s.config.maxOffset < ad.toNat + 1 := hout
      omega

/-! The statements. -/

theorem step_of_nothingToFault {s : State} (hs : NothingToFault s) : ∃ t, step s = .next t ∧ NothingToFault t := by
  obtain ⟨hrange, hmod8, hwrite⟩ := hs
  rcases stepEndsInOkOrFault s with ⟨t, h⟩ | ⟨f, h⟩
  · obtain ⟨_, _, _, ⟨_, hconfig⟩, _⟩ := completedStepFrame s t h
    exact ⟨t, h, by rw [NothingToFault, hconfig]; exact ⟨hrange, hmod8, hwrite⟩⟩
  · cases hkind : f.kind with
    | outOfBounds => exact absurd (step_fault_outOfBounds h hkind) (Nat.not_lt.mpr hrange)
    | badRegister =>
      rcases step_fault_badRegister h hkind with hfault | hfault
      · cases hmod8.symm.trans hfault
      · cases hwrite.symm.trans hfault

theorem safeFor_of_nothingToFault {s : State} (hs : NothingToFault s) (k : Nat) : SafeFor k s := by
  induction k generalizing s with
  | zero => exact ⟨s, rfl⟩
  | succ k ih =>
    obtain ⟨t, hstep, ht⟩ := step_of_nothingToFault hs
    obtain ⟨u, hrun⟩ := ih ht
    exact ⟨u, by rw [core_run_succ, hstep]; exact hrun⟩

/-- Settles O58: a step faults in neither kind and keeps the parameters; the run by induction on its length. -/
theorem withNothingToFaultEveryRunIsSafe : Obligations.WithNothingToFaultEveryRunIsSafe := fun _ hs =>
  ⟨step_of_nothingToFault hs, safeFor_of_nothingToFault hs⟩

theorem opcode_length_le_four (op : Opcode) : op.length ≤ 4 := by
  cases op with
  | addRegToReg | andRegToReg | orRegToReg | movLiteralToReg | movMemToReg | movRegToMem | movRegToReg | noOp => decide
  | unknown _ => exact (by decide : 1 ≤ 4)

/-- Settles O49: IP has advanced over nothing, over the fetches before the one that failed, or over the whole
instruction, whose execute phase then writes nothing. -/
theorem faultLeavesOnlyTheIpAdvance : Obligations.FaultLeavesOnlyTheIpAdvance := by
  intro s f h
  have hlength := opcode_length_le_four s.opcodeAtIp
  rcases step_fault_cases h with ⟨_, rfl⟩ | ⟨_, _, hfirst, rfl⟩ | ⟨i, hexec⟩
  · exact ⟨0, Nat.zero_le _, by simp [Fault.after]⟩
  · obtain ⟨⟨k, hk, rfl⟩, _⟩ := firstOutOfRange_eq_some hfirst
    rw [Opcode.length] at hlength
    exact ⟨1 + k, by omega, by rw [BitVec.ofNat_add, ← BitVec.add_assoc]; rfl⟩
  · exact ⟨_, hlength, exec_fault_after hexec⟩

/-- Settles O51: an operand of at most 7 names a register whatever the policy (R61). -/
theorem faultKindsAndWhereTheyArise : Obligations.FaultKindsAndWhereTheyArise := by
  refine ⟨rfl, rfl, fun s f => step_fault_badRegister, fun i s f hwrite hsmall h => ?_⟩
  cases hkind : f.kind with
  | outOfBounds => rfl
  | badRegister =>
    rcases exec_fault_badRegister h hkind with ⟨r, hr, hnone⟩ | hfault
    · cases (operandId_of_le_seven s.config (hsmall r hr)).symm.trans hnone
    · cases hwrite.symm.trans hfault

/-- The fields that R100 gives `BadRegister`. -/
theorem badRegister_fields {x : Result} {a : Nat} {s : State} (h : x = .fault (.badRegister a s)) :
    ∃ f, x = .fault f ∧ f.kind = .badRegister ∧ f.addr = a ∧ f.width = .byte ∧ f.phase = .execute ∧ f.after = s :=
  ⟨_, h, rfl, rfl, rfl, rfl, rfl⟩

/-- Settles O60: the faults of O44, read field by field; id 0 is IP's in the listing order. -/
theorem badRegisterInTheListingOrder : Obligations.BadRegisterInTheListingOrder := by
  intro s a b w horder
  obtain ⟨hfirst, hsecond, hdest⟩ := badRegisterIsRaisedByTheChecks s a b w
  refine ⟨fun hpolicy ha i hi => badRegister_fields (hfirst hpolicy ha i hi),
    fun hpolicy ha hb i hi => badRegister_fields (hsecond hpolicy ha hb i hi), fun hpolicy hb ⟨_, ha⟩ => ?_⟩
  have hip : regOf s.config 0 = .ip := regOf_of_listingOrder horder 0
  obtain ⟨hmove, hmoveReg⟩ := hdest hpolicy 0 hb hip
  simp only [List.forall_mem_cons] at hmove ⊢
  obtain ⟨hliteral, hmem, _⟩ := hmove
  exact ⟨badRegister_fields hliteral, badRegister_fields hmem, badRegister_fields (hmoveReg _ ⟨_, ha, rfl⟩), by simp⟩

end Sys2Proof.Machine
end

section
/-! O20, O21 and O53: the state that reset constructs (spec/70_reset_and_hazards.md R113, R114), and what every host
request keeps of any state (R115): the parameters, and the invariant where it held. -/

namespace Sys2Proof.Machine

/-! Reset. -/

/-- Settles O20: IP is 0, and the cell at address 0 exists under every `MAX_OFFSET`. -/
theorem firstOpcodeIsFetchedAtZero : Obligations.FirstOpcodeIsFetchedAtZero := fun c mem0 =>
  fetchByte_of_in_range (s := State.construct c mem0) (p := 0) (Nat.zero_le c.maxOffset) .opcodeFetch

theorem State.construct_wf {c : Config} {mem0 : Memory} (hconfig : c.wf) (hmem : mem0.wf)
    (hwithin : mem0.within c.maxOffset) : (State.construct c mem0).wf :=
  ⟨hmem, hwithin, hconfig⟩

theorem Config.reference_wf : Config.reference.wf := by decide

/-- Settles O21: `State.reset` is a construction too, from the reference parameters and no listed cell. -/
theorem resetStateIsWellFormed : Obligations.ResetStateIsWellFormed :=
  ⟨State.construct_wf Config.reference_wf State.reset_mem_wf (List.forall_mem_nil _),
    fun _ _ => State.construct_wf⟩

/-! Requests. -/

/-- `t` has the parameters of `s`, and the invariant if `s` has it. -/
def State.KeptIn (s t : State) : Prop := t.config = s.config ∧ (s.wf → t.wf)

theorem State.KeptIn.refl (s : State) : s.KeptIn s := ⟨rfl, id⟩

theorem State.KeptIn.trans {s t u : State} (hst : s.KeptIn t) (htu : t.KeptIn u) : s.KeptIn u := by
  obtain ⟨hconfig, hwf⟩ := hst
  obtain ⟨hconfig', hwf'⟩ := htu
  exact ⟨hconfig'.trans hconfig, hwf' ∘ hwf⟩

theorem State.keptIn_withCursor (s : State) (c : Nat) : s.KeptIn (s.withCursor c) := ⟨rfl, id⟩

theorem State.keptIn_write {s : State} {a : Nat} (ha : a ≤ s.config.maxOffset) (b : Byte) :
    s.KeptIn (s.withMem (s.mem.write a b)) :=
  ⟨rfl, fun ⟨hmem, hwithin, hconfig⟩ => ⟨Memory.write_wf hmem a b, Memory.write_within hwithin ha b, hconfig⟩⟩

theorem State.keptIn_write16 {s : State} {a : Nat} (ha : a + 1 ≤ s.config.maxOffset) (x y : Byte) :
    s.KeptIn (s.withMem ((s.mem.write a x).write (a + 1) y)) :=
  ⟨rfl, fun hs => State.wf_write16 hs ha x y⟩

/-- A step keeps the invariant by O52; the parameters are in the frame of a completed step (O48), and a faulting one
changes IP alone. -/
theorem stepPort_keptIn (s : State) : s.KeptIn (stepPort s).2 := by
  rw [stepPort]
  cases hstep : step s with
  | next t =>
    obtain ⟨_, _, _, ⟨_, hconfig⟩, _⟩ := completedStepFrame s t hstep
    exact ⟨hconfig, fun hs => (everyStepKeepsTheInvariant s hs).1 t hstep⟩
  | fault f =>
    obtain ⟨p, hafter⟩ := step_fault_after hstep
    exact ⟨by simp only [hafter, State.withIp_config], fun hs => (everyStepKeepsTheInvariant s hs).2 f hstep⟩
  | refused r => exact .refl s

/-- A load or a snapshot changes nothing, and a store or a push that succeeds writes cells in range. -/
theorem serve_keptIn (r : Request) (s : State) : s.KeptIn (serve r s).2 := by
  cases r with
  | step => exact stepPort_keptIn s
  | loadByte a | load16 a => rw [serve]; split <;> exact .refl s
  | storeByte a b =>
    rcases s.storeByte_cases a b with ⟨hrange, e⟩ | ⟨_, e⟩ <;> rw [serve, e]
    · exact State.keptIn_write hrange b
    · exact .refl s
  | store16 a w =>
    rcases s.store16_cases a w with ⟨hrange, e⟩ | ⟨_, e⟩ <;> rw [serve, e]
    · exact State.keptIn_write16 hrange _ _
    · exact .refl s
  | pushByte b =>
    rcases s.pushByte_cases b with ⟨hrange, e⟩ | ⟨_, e⟩ <;> rw [serve, e]
    · exact (State.keptIn_write hrange b).trans (State.keptIn_withCursor _ _)
    · exact .refl s
  | push16 w =>
    rcases s.push16_cases w with ⟨hrange, e⟩ | ⟨_, e⟩ <;> rw [serve, e]
    · exact (State.keptIn_write16 hrange _ _).trans (State.keptIn_withCursor _ _)
    · exact .refl s
  | snapshot => exact .refl s

/-- Settles O53: by induction on the requests, each served in the state that the ones before it left. -/
theorem requestsKeepTheInvariantAndTheParameters : Obligations.RequestsKeepTheInvariantAndTheParameters := by
  intro rs
  induction rs with
  | nil => exact State.KeptIn.refl
  | cons r rs ih => exact fun s => (serve_keptIn r s).trans (ih (serve r s).2)

end Sys2Proof.Machine
end
